-- ==== Sys2Proof/Syntax.lean ====
section
/-! DEFINITION. The thirteen commands of the core (R92). A command has no operand field (R90, R93). -/

namespace Sys2Proof

/-- One constructor per row of the opcode map (R92), in the order of the map. -/
inductive Instr where
  | gfmul
  | gfinv
  | affine
  | sbox
  | theta
  | thetai
  | perm
  | ksnext
  | encblk
  | ctr
  | hash
  | hmac
  | ae
  deriving DecidableEq, Repr

end Sys2Proof
end

