-- ==== Sys2Proof/Word.lean ====
section
/-! DEFINITION. The word types of the BKSQ core: bytes, 32-bit values, 12-byte blocks, 6-byte nonces. -/

namespace Sys2Proof

/-- A byte, `v[0]` its least significant bit (R10). -/
abbrev Byte := BitVec 8

/-- A 32-bit value: a length register or a host offset (R28, R60). -/
abbrev Word := BitVec 32

/-- A block: exactly 12 bytes, byte 0 first and of the highest order (R10, R11). -/
abbrev Block := Vector Byte 12

/-- A nonce: exactly 6 bytes (R7, R30). -/
abbrev Nonce := Vector Byte 6

end Sys2Proof
end

