-- ==== Sys2Proof/Decode.lean ====
section
/-! DEFINITION. The decoder of command bytes and the encoder, both from the opcode map of R92. -/

namespace Sys2Proof

/-- Why a byte sequence is no command. -/
inductive DecodeError where
  /-- There is no byte to decode. -/
  | noByte
  /-- The byte is none of the thirteen codes of R92: a reserved code (R96). -/
  | reservedCode (c : Byte)
  deriving DecidableEq, Repr

/-- A row of the opcode map in match/mask form (R92). -/
structure OpcodeRow where
  mask    : Byte
  pattern : Byte
  instr   : Instr
  deriving DecidableEq, Repr

/-- The opcode map of R92: every row has `match = OPCODE` and `mask = 0xFF`. -/
def opcodeTable : List OpcodeRow :=
  [⟨0xFF, 0x01, .gfmul⟩, ⟨0xFF, 0x02, .gfinv⟩, ⟨0xFF, 0x03, .affine⟩, ⟨0xFF, 0x04, .sbox⟩,
   ⟨0xFF, 0x05, .theta⟩, ⟨0xFF, 0x06, .thetai⟩, ⟨0xFF, 0x07, .perm⟩, ⟨0xFF, 0x08, .ksnext⟩,
   ⟨0xFF, 0x09, .encblk⟩, ⟨0xFF, 0x0A, .ctr⟩, ⟨0xFF, 0x0B, .hash⟩, ⟨0xFF, 0x0C, .hmac⟩,
   ⟨0xFF, 0x0D, .ae⟩]

/-- The command of a code, by the first row that matches it. -/
def decodeIn (c : Byte) : List OpcodeRow → Except DecodeError Instr
  | [] => .error (.reservedCode c)
  | row :: rows => if c &&& row.mask = row.pattern then .ok row.instr else decodeIn c rows

/-- The command a code byte selects, or its rejection (R92, R96). -/
def decodeByte (c : Byte) : Except DecodeError Instr := decodeIn c opcodeTable

/-- Whether a code is one of the thirteen (R92). -/
def isCommand (c : Byte) : Bool :=
  match decodeByte c with
  | .ok _ => true
  | .error _ => false

/-- A command is one byte long (R90): it is read off the front and the rest is handed back. -/
def decode : List Byte → Except DecodeError (Instr × List Byte)
  | [] => .error .noByte
  | c :: rest =>
    match decodeByte c with
    | .ok i => .ok (i, rest)
    | .error e => .error e

/-- `OPCODE` of a command (R92). -/
def opcode : Instr → Byte
  | .gfmul  => 0x01
  | .gfinv  => 0x02
  | .affine => 0x03
  | .sbox   => 0x04
  | .theta  => 0x05
  | .thetai => 0x06
  | .perm   => 0x07
  | .ksnext => 0x08
  | .encblk => 0x09
  | .ctr    => 0x0A
  | .hash   => 0x0B
  | .hmac   => 0x0C
  | .ae     => 0x0D

/-- The bytes of a command: its `OPCODE` and nothing else (R90). -/
def encode (i : Instr) : List Byte := [opcode i]

/-- The code byte of a table word: the low `nbits` bits of `w`, every bit above them zero. -/
def tableByte (nbits w : Nat) : Byte := BitVec.ofNat 8 (w % 2 ^ nbits)

/-- The decoder on a table word, whose one byte is `tableByte nbits w`. -/
def decodeTableWord (nbits w : Nat) : Option Instr :=
  match decode [tableByte nbits w] with
  | .ok (i, _) => some i
  | .error _ => none

end Sys2Proof
end

