-- ==== Sys2Proof/Config.lean ====
section
/-! DEFINITION. What an implementation fixes: the six open parameters of R8, their reference value, the named
alternative key schedule; and the free values, constants with no body. -/

namespace Sys2Proof

/-- The six parameters of R8. They are arguments of every step, never changed by one; `State.config` carries them. -/
structure Config where
  /-- `DBUF_BYTES`, the capacity of the data buffer in bytes. -/
  dbufBytes : Nat
  /-- `AFF_ROW[0..7]`, the row masks of the affine map's matrix over GF(2). -/
  affRow    : Vector Byte 8
  /-- `AFF_C`, the additive constant of the affine map. -/
  affC      : Byte
  /-- `KS_SRC[0..2]`, the previous-key bytes that feed the first group of the key schedule. -/
  ksSrc     : Vector (Fin 12) 3
  /-- `KS_RCL[0..2]`, which of the first three bytes get the round constant. -/
  ksRcl     : Vector Bool 3
  /-- `KS_FEED`, whether previous-key byte `j` is also XORed into new byte `j`. -/
  ksFeed    : Bool
  deriving DecidableEq, Repr

/-- The reference value of the parameters (R8, R121, R147). -/
def Config.reference : Config where
  dbufBytes := 3072
  affRow    := #v[0xF1, 0xE3, 0xC7, 0x8F, 0x1F, 0x3E, 0x7C, 0xF8]
  affC      := 0x63
  ksSrc     := #v[0, 1, 2]
  ksRcl     := #v[true, true, true]
  ksFeed    := false

/-- The named alternative key schedule of R147, the other parameters as in the reference. -/
def Config.aesLike : Config :=
  { Config.reference with
    ksSrc := #v[10, 11, 9], ksRcl := #v[true, false, false], ksFeed := true }

/-- Free value: the `n`-th unspecified byte (a byte read by a forbidden access, R72 and R77; a data byte after a reset
event, R35 and R36). No body: nothing can be proved of it. notes/assumptions/4.md, notes/assumptions/5.md. -/
opaque Config.freeByte : Nat → Byte

/-- Free value: the `n`-th unspecified 32-bit value (a forbidden 32-bit read, R72 and R77). No body.
notes/assumptions/4.md. -/
opaque Config.freeWord : Nat → Word

end Sys2Proof
end

