-- ==== Sys2Proof/Machine/Bits.lean ====
section
/-! DEFINITION. Bit and byte helpers of the pure functions: a byte from its bits, parity, a linear map over GF(2),
blocks from their bytes, XOR of blocks, nonce and zero bytes. -/

namespace Sys2Proof

/-- The byte whose bit `i` is `f i` (R10: bit 0 is the least significant). -/
def byteOfBits (f : Fin 8 → Bool) : Byte :=
  .cons (f 7) <| .cons (f 6) <| .cons (f 5) <| .cons (f 4) <|
  .cons (f 3) <| .cons (f 2) <| .cons (f 1) <| .cons (f 0) .nil

/-- The XOR of all 8 bits of a byte (R120). -/
def parity (v : Byte) : Bool :=
  v.getLsbD 0 ^^ v.getLsbD 1 ^^ v.getLsbD 2 ^^ v.getLsbD 3 ^^
  v.getLsbD 4 ^^ v.getLsbD 5 ^^ v.getLsbD 6 ^^ v.getLsbD 7

/-- The linear map over GF(2) whose matrix has the given row masks: output bit `i` is the XOR of those input bits `v[j]`
for which `rows[i][j] = 1` (R120). -/
def gf2Linear (rows : Vector Byte 8) (v : Byte) : Byte :=
  byteOfBits fun i => parity (rows[i] &&& v)

/-- The block whose byte `i` is `f i`. -/
def Block.ofFn (f : Fin 12 → Byte) : Block :=
  #v[f 0, f 1, f 2, f 3, f 4, f 5, f 6, f 7, f 8, f 9, f 10, f 11]

/-- The nonce whose byte `i` is `f i`. -/
def Nonce.ofFn (f : Fin 6 → Byte) : Nonce :=
  #v[f 0, f 1, f 2, f 3, f 4, f 5]

/-- `c^12`, twelve copies of a byte (R10). -/
def Block.const (c : Byte) : Block := Block.ofFn fun _ => c

/-- `a ^ b` of two blocks, byte by byte (R12). -/
def Block.xor (a b : Block) : Block := Block.ofFn fun i => a[i] ^^^ b[i]

/-- `nonce || 0^6`, the nonce in the high-order half (R11, R165, R200). -/
def nonceBlock (n : Nonce) : Block :=
  #v[n[0], n[1], n[2], n[3], n[4], n[5], 0, 0, 0, 0, 0, 0]

end Sys2Proof
end

