-- ==== Sys2Proof/Machine/State.lean ====
section
/-! DEFINITION. The state of the core (R20), the host's side of it that a step reads, the reasons a step can stop, and
the state after reset (R35). -/

namespace Sys2Proof.Machine

/-- The closed status enumeration of R210. Its numbers are `Status.code`. -/
inductive Status where
  | ok
  | invalidDataLength
  | invalidNonceLength
  | invalidKeyLength
  deriving DecidableEq, Repr

/-- The three flags of `FLAGS` (R27). Bits 7 to 3 read 0 and hold nothing. The byte is `Flags.toByte`. -/
structure Flags where
  busy    : Bool
  done    : Bool
  illegal : Bool
  deriving DecidableEq, Repr

/-- The contents of `DBUF`: the bytes written since reset, by rising address. An unlisted address is unspecified (R36) and
reads as nothing. -/
abbrev Memory := List Host.Cell

/-- One host access on the bus (R68, R72): its width, its offset (R60) and, for a write, its value. -/
inductive Access where
  | read8   (off : Word)
  | read32  (off : Word)
  | write8  (off : Word) (v : Byte)
  | write32 (off : Word) (v : Word)
  deriving DecidableEq, Repr

/-- Who moves next (R15): the host makes an access, the core gets its turn, or the core is reset (R240). -/
inductive Event where
  | host (acc : Access)
  | core
  | reset
  deriving DecidableEq, Repr

/-- What a host read got back: a byte, or a 32-bit value. -/
inductive Reply where
  | byte (v : Byte)
  | word (v : Word)
  deriving DecidableEq, Repr

/-- The architectural state of R20 (`a` to `dbuf`, under the spec's names in lower case; `pfx` is `PREFIX` and `pfxLen` is
`PREFIXLEN`), and after it four fields of the model's own: the parameters of R8, the moves still to come, what the
host's reads got, and the number of free values drawn. -/
structure State where
  a        : Byte
  b        : Byte
  t        : Byte
  r        : Byte
  x        : Block
  y        : Block
  key      : Block
  nonce    : Nonce
  pfx      : Block
  dataLen  : Word
  keyLen   : Word
  nonceLen : Word
  pfxLen   : Word
  cmd      : Byte
  status   : Status
  flags    : Flags
  dbuf     : Memory
  /-- The parameters of R8: fixed for the machine, changed by no step. -/
  config   : Config
  /-- The moves still to come, the next one first. The host writes this list; the core has no part in it. -/
  agenda   : List Event
  /-- What the host's reads got, the latest first. -/
  replies  : List Reply
  /-- How many free values (`Config.freeByte`, `Config.freeWord`) have been drawn. -/
  freeCount : Nat
  deriving DecidableEq, Repr

/-- Why the machine stops. -/
inductive Fault where
  /-- Raised by `CTR`, `HASH`, `HMAC`, `AE` and by a host read of `DBUF`, when the first byte they read that nothing has
  written since reset is the one at this address (R36, U1). SAFE: the core goes on with an unspecified value. -/
  | unwrittenData (addr : Nat)
  /-- Raised by the core's turn when it is busy and `CMD` holds a reserved code. The spec gives this state no meaning and no
  run reaches it: `BUSY` is set only at the issue of a valid code (R91). SAFE. -/
  | busyWithReservedCode (c : Byte)
  deriving DecidableEq, Repr

/-- Why a command has no meaning. -/
inductive Refusal where
  /-- Raised by `exec` for a command the model gives no meaning yet; the model gives all thirteen theirs. SAFE. -/
  | notModelled (mnemonic : String)
  deriving DecidableEq, Repr

/-- The state after reset (R35): `CMD`, `STATUS`, `FLAGS` and the lengths 0, `DBUF` unspecified. The registers that R35 leaves
unspecified hold zero here: a DESIGN CHOICE, unsafe (notes/assumptions/1.md). The parameters are the reference value
(notes/assumptions/2.md). -/
def State.reset : State where
  a := 0
  b := 0
  t := 0
  r := 0
  x := Block.const 0
  y := Block.const 0
  key := Block.const 0
  nonce := Nonce.ofFn fun _ => 0
  pfx := Block.const 0
  dataLen := 0
  keyLen := 0
  nonceLen := 0
  pfxLen := 0
  cmd := 0
  status := .ok
  flags := { busy := false, done := false, illegal := false }
  dbuf := []
  config := Config.reference
  agenda := []
  replies := []
  freeCount := 0

end Sys2Proof.Machine
end

