-- ==== Sys2Proof/Machine/Flags.lean ====
section
/-! DEFINITION. The flag and status encodings (R27, R210) and the three changes the flags undergo (R91, R214, R217). -/

namespace Sys2Proof.Machine

/-- The number of a status (R210). -/
def Status.code : Status → Byte
  | .ok => 0
  | .invalidDataLength => 1
  | .invalidNonceLength => 2
  | .invalidKeyLength => 3

/-- `FLAGS` as the byte the host reads: bit 0 `BUSY`, bit 1 `DONE`, bit 2 `ILLEGAL`, bits 7 to 3 zero (R27). -/
def Flags.toByte (f : Flags) : Byte :=
  byteOfBits fun i => if i = 0 then f.busy else if i = 1 then f.done else if i = 2 then f.illegal else false

/-- The flags at the issue of a valid command: `DONE <- 0`, `BUSY <- 1` (R91). -/
def Flags.issued (f : Flags) : Flags := { f with busy := true, done := false }

/-- The flags at the completion of a command: `BUSY <- 0`, `DONE <- 1` (R214, R216). -/
def Flags.completed (f : Flags) : Flags := { f with busy := false, done := true }

/-- The flags after an illegal event: `ILLEGAL` is set, and stays set until reset (R27, R217). -/
def Flags.marked (f : Flags) : Flags := { f with illegal := true }

end Sys2Proof.Machine
end

