-- ==== Sys2Proof/Machine/Ops.lean ====
section
/-! DEFINITION. The named operations over `DBUF` and the registers: reading and writing the buffer, completing a command
and ending it with a failure (the "trap entry" of this hardware, R214), issuing a command, reset. -/

namespace Sys2Proof.Machine

/-! ### The data buffer -/

/-- `DBUF[a]`, or nothing where it was never written since reset (R36). -/
def Memory.read : Memory → Nat → Option Byte
  | [], _ => none
  | (k, v) :: m, a => if k = a then some v else Memory.read m a

/-- `DBUF[a] <- v`, the list kept by rising address. -/
def Memory.write : Memory → Nat → Byte → Memory
  | [], a, v => [(a, v)]
  | (k, w) :: m, a, v =>
    if a < k then (a, v) :: (k, w) :: m
    else if a = k then (a, v) :: m
    else (k, w) :: Memory.write m a v

/-- The canonical form: addresses strictly rising. (An unlisted address reads as nothing, so no entry can repeat it.) -/
abbrev Memory.wf (m : Memory) : Prop := (m.map Prod.fst).Pairwise (· < ·)

/-- `MemWrite(a, n, v)` for a byte sequence: byte `k` goes to `DBUF[a+k]` (R66). -/
def Memory.writeBytes : Memory → Nat → List Byte → Memory
  | m, _, [] => m
  | m, a, v :: vs => Memory.writeBytes (m.write a v) (a + 1) vs

/-- The first address of `DBUF[a .. a+n-1]` that was never written, if there is one. -/
def Memory.firstUnwritten (m : Memory) : Nat → Nat → Option Nat
  | _, 0 => none
  | a, n + 1 =>
    match m.read a with
    | none => some a
    | some _ => Memory.firstUnwritten m (a + 1) n

/-- `MemRead(a, 12)` as a block (R61, R66). Used only where `firstUnwritten` has shown every byte written, so the default
byte never enters a result. -/
def Memory.readBlock (m : Memory) (a : Nat) : Block :=
  Block.ofFn fun j => (m.read (a + j.val)).getD 0

/-- `n` consecutive blocks from address `a`, in address order (R61). -/
def Memory.readBlocks (m : Memory) : Nat → Nat → List Block
  | _, 0 => []
  | a, n + 1 => m.readBlock a :: Memory.readBlocks m (a + 12) n

/-- The bytes of a sequence of blocks, in index order (R61). -/
def blockBytes (bs : List Block) : List Byte := bs.flatMap Vector.toList

/-! ### Register and status writes -/

/-- `R <- v`. -/
def State.setR (s : State) (v : Byte) : State := { s with r := v }

/-- `Y <- v`, all 12 bytes at once (R23). -/
def State.setY (s : State) (v : Block) : State := { s with y := v }

/-- The data of a mode command is overwritten, from address 0, block by block (R32, R169). -/
def State.setData (s : State) (bs : List Block) : State :=
  { s with dbuf := s.dbuf.writeBytes 0 (blockBytes bs) }

/-- `STATUS <- st`, `FLAGS.BUSY <- 0`, `FLAGS.DONE <- 1`, all together (R214, R216). -/
def State.finish (s : State) (st : Status) : State :=
  { s with status := st, flags := s.flags.completed }

/-- `FLAGS.ILLEGAL <- 1`, nothing else (R217). -/
def State.markIllegal (s : State) : State := { s with flags := s.flags.marked }

/-- A host read gets this value back. -/
def State.reply (s : State) (v : Reply) : State := { s with replies := v :: s.replies }

/-- `n` free values have been drawn. -/
def State.draw (s : State) (n : Nat) : State := { s with freeCount := s.freeCount + n }

/-- The moves still to come. -/
def State.setAgenda (s : State) (es : List Event) : State := { s with agenda := es }

/-- `CMD <- c` and the flags of an issue: of a valid code `DONE <- 0`, `BUSY <- 1`; of a reserved code `ILLEGAL <- 1` (R91,
R96). -/
def State.issue (s : State) (c : Byte) : State :=
  match decodeByte c with
  | .ok _ => { s with cmd := c, flags := s.flags.issued }
  | .error _ => { s with cmd := c, flags := s.flags.marked }

/-! ### Ending a command -/

/-- `complete Ok` (R13, R216). -/
def complete (s : State) : Host.Outcome State Fault Refusal := .next (s.finish .ok)

/-- `raise <Code>` (R13, R214): the status and the flags are written and nothing else. This is taking an exception on this
hardware; there is no return from one (R215). -/
def raise (code : Status) (s : State) : Host.Outcome State Fault Refusal := .next (s.finish code)

/-- The first check that fails decides the status; later checks are not made (R212). -/
def firstFailure : List (Bool × Status) → Option Status
  | [] => none
  | (passed, code) :: rest => if passed then firstFailure rest else some code

/-- A mode command: its checks in order, then its work (R212, R214). -/
def validated (checks : List (Bool × Status)) (s : State) (work : State → Host.Outcome State Fault Refusal) :
    Host.Outcome State Fault Refusal :=
  match firstFailure checks with
  | some code => raise code s
  | none => work s

/-! ### Reset -/

/-- The block of the free bytes `n` to `n+11`. -/
def freeBlock (n : Nat) : Block := Block.ofFn fun j => Config.freeByte (n + j.val)

/-- The nonce of the free bytes `n` to `n+5`. -/
def freeNonce (n : Nat) : Nonce := Nonce.ofFn fun j => Config.freeByte (n + j.val)

/-- How many free bytes a reset event draws: four byte registers, four block registers and the nonce. -/
def resetDraws : Nat := 58

/-- The reset event (R240 to R242): `CMD`, `STATUS`, `FLAGS` and the lengths 0; every data location unspecified, so the
registers take free values and `DBUF` lists nothing. A command in progress is abandoned (R241). -/
def State.resetEvent (s : State) : State :=
  { s with
    a := Config.freeByte s.freeCount
    b := Config.freeByte (s.freeCount + 1)
    t := Config.freeByte (s.freeCount + 2)
    r := Config.freeByte (s.freeCount + 3)
    x := freeBlock (s.freeCount + 4)
    y := freeBlock (s.freeCount + 16)
    key := freeBlock (s.freeCount + 28)
    pfx := freeBlock (s.freeCount + 40)
    nonce := freeNonce (s.freeCount + 52)
    dataLen := 0
    keyLen := 0
    nonceLen := 0
    pfxLen := 0
    cmd := 0
    status := .ok
    flags := { busy := false, done := false, illegal := false }
    dbuf := []
    freeCount := s.freeCount + resetDraws }

/-! ### The next move and the command in progress -/

/-- The next move and the state with it taken off the agenda. With nothing on the agenda the core has the turn: once issued
a command, it runs (R250). -/
def State.popEvent (s : State) : Event × State :=
  match s.agenda with
  | [] => (.core, s)
  | e :: es => (e, s.setAgenda es)

/-- The command in progress: the code that the issue left in `CMD` (R25, R82). -/
def State.fetch (s : State) : Except Fault Instr :=
  match decodeByte s.cmd with
  | .ok i => .ok i
  | .error _ => .error (.busyWithReservedCode s.cmd)

/-- The code `c` issued as a host write to `CMD` issues it, and the next move the core's. -/
def State.placeCommand (s : State) (c : Byte) : State := (s.issue c).setAgenda (.core :: s.agenda)

end Sys2Proof.Machine
end

