-- ==== Sys2Proof/Machine/Bus.lean ====
section
/-! DEFINITION. The host's side: the address map of R71, the accesses of R68 and R69, the forbidden ones of R72, R77 and
R217. -/

namespace Sys2Proof.Machine

/-- A location with byte access (R71). -/
inductive ByteLoc where
  | cmd
  | flags
  | status
  | t
  | a
  | b
  | r
  | key   (j : Fin 12)
  | nonce (j : Fin 6)
  | pfx   (j : Fin 12)
  | x     (j : Fin 12)
  | y     (j : Fin 12)
  | dbuf  (addr : Nat)
  deriving DecidableEq, Repr

/-- A location with 32-bit access (R71). -/
inductive WordLoc where
  | dataLen
  | keyLen
  | nonceLen
  | pfxLen
  deriving DecidableEq, Repr

/-- The byte location at an offset, with a buffer of `cap` bytes; nothing at a reserved offset or inside a 32-bit register
(R71, R72). -/
def byteLocAt (cap o : Nat) : Option ByteLoc :=
  if o = 0x0000 then some .cmd
  else if o = 0x0001 then some .flags
  else if o = 0x0002 then some .status
  else if o = 0x0003 then some .t
  else if o = 0x0004 then some .a
  else if o = 0x0005 then some .b
  else if o = 0x0006 then some .r
  else if h : 0x0020 ≤ o ∧ o < 0x0020 + 12 then some (.key ⟨o - 0x0020, by omega⟩)
  else if h : 0x0030 ≤ o ∧ o < 0x0030 + 6 then some (.nonce ⟨o - 0x0030, by omega⟩)
  else if h : 0x0040 ≤ o ∧ o < 0x0040 + 12 then some (.pfx ⟨o - 0x0040, by omega⟩)
  else if h : 0x0050 ≤ o ∧ o < 0x0050 + 12 then some (.x ⟨o - 0x0050, by omega⟩)
  else if h : 0x0060 ≤ o ∧ o < 0x0060 + 12 then some (.y ⟨o - 0x0060, by omega⟩)
  else if 0x1000 ≤ o ∧ o < 0x1000 + cap then some (.dbuf (o - 0x1000))
  else none

/-- The 32-bit location at an offset (R71). -/
def wordLocAt (o : Nat) : Option WordLoc :=
  if o = 0x0008 then some .dataLen
  else if o = 0x000C then some .keyLen
  else if o = 0x0010 then some .nonceLen
  else if o = 0x0014 then some .pfxLen
  else none

/-- The location a byte read may reach now: while busy `FLAGS` alone (R76, R77). -/
def State.readable8 (s : State) (off : Word) : Option ByteLoc :=
  match byteLocAt s.config.dbufBytes off.toNat with
  | some l => if s.flags.busy && l != .flags then none else some l
  | none => none

/-- The location a byte write may reach now: while busy none (R77). -/
def State.writable8 (s : State) (off : Word) : Option ByteLoc :=
  if s.flags.busy then none else byteLocAt s.config.dbufBytes off.toNat

/-- The location a 32-bit access may reach now: while busy none (R77). -/
def State.reachable32 (s : State) (off : Word) : Option WordLoc :=
  if s.flags.busy then none else wordLocAt off.toNat

/-- The byte at a location. A byte of `DBUF` that was never written stops the machine (R36, U1). -/
def State.readLoc (s : State) : ByteLoc → Except Fault Byte
  | .cmd => .ok s.cmd
  | .flags => .ok s.flags.toByte
  | .status => .ok s.status.code
  | .t => .ok s.t
  | .a => .ok s.a
  | .b => .ok s.b
  | .r => .ok s.r
  | .key j => .ok s.key[j]
  | .nonce j => .ok s.nonce[j]
  | .pfx j => .ok s.pfx[j]
  | .x j => .ok s.x[j]
  | .y j => .ok s.y[j]
  | .dbuf addr =>
    match s.dbuf.read addr with
    | some v => .ok v
    | none => .error (.unwrittenData addr)

/-- A byte write: a write to `CMD` issues (R69, R91), a write to a read-only location changes no state and is illegal (R72),
every other write stores. -/
def State.writeLoc (s : State) (v : Byte) : ByteLoc → State
  | .cmd => s.issue v
  | .flags => s.markIllegal
  | .status => s.markIllegal
  | .t => { s with t := v }
  | .a => { s with a := v }
  | .b => { s with b := v }
  | .r => s.markIllegal
  | .key j => { s with key := s.key.set j.val v }
  | .nonce j => { s with nonce := s.nonce.set j.val v }
  | .pfx j => { s with pfx := s.pfx.set j.val v }
  | .x j => { s with x := s.x.set j.val v }
  | .y _ => s.markIllegal
  | .dbuf addr => { s with dbuf := s.dbuf.write addr v }

/-- The 32-bit value at a location (R28). -/
def State.readWordLoc (s : State) : WordLoc → Word
  | .dataLen => s.dataLen
  | .keyLen => s.keyLen
  | .nonceLen => s.nonceLen
  | .pfxLen => s.pfxLen

/-- A 32-bit write (R28). -/
def State.writeWordLoc (s : State) (v : Word) : WordLoc → State
  | .dataLen => { s with dataLen := v }
  | .keyLen => { s with keyLen := v }
  | .nonceLen => { s with nonceLen := v }
  | .pfxLen => { s with pfxLen := v }

/-- A forbidden byte read: `ILLEGAL` is set and the host gets a free value (R72, R217). -/
def State.forbiddenRead8 (s : State) : State :=
  (s.markIllegal.reply (.byte (Config.freeByte s.freeCount))).draw 1

/-- A forbidden 32-bit read: `ILLEGAL` is set and the host gets a free value (R72, R217). -/
def State.forbiddenRead32 (s : State) : State :=
  (s.markIllegal.reply (.word (Config.freeWord s.freeCount))).draw 1

/-- A host access, legal or forbidden (R68, R72, R76, R77, R217). -/
def State.access (s : State) : Access → Host.Outcome State Fault Refusal
  | .read8 off =>
    match s.readable8 off with
    | none => .next s.forbiddenRead8
    | some l =>
      match s.readLoc l with
      | .ok v => .next (s.reply (.byte v))
      | .error f => .fault f
  | .read32 off =>
    match s.reachable32 off with
    | none => .next s.forbiddenRead32
    | some l => .next (s.reply (.word (s.readWordLoc l)))
  | .write8 off v =>
    match s.writable8 off with
    | none => .next s.markIllegal
    | some l => .next (s.writeLoc v l)
  | .write32 off v =>
    match s.reachable32 off with
    | none => .next s.markIllegal
    | some l => .next (s.writeWordLoc v l)

end Sys2Proof.Machine
end

