-- ==== Sys2Proof/Machine/Field.lean ====
section
/-! DEFINITION. Field arithmetic (R110 to R117) and the commands GFMUL and GFINV. -/

namespace Sys2Proof

/-! ### Multiplication -/

/-- The carry-less product of R111's first loop: the XOR of `a` shifted by the position of each set bit of `b`. -/
def gfProduct (a b : Byte) : BitVec 15 :=
  [0, 1, 2, 3, 4, 5, 6, 7].foldl
    (fun p i => if b.getLsbD i then p ^^^ (a.setWidth 15 <<< i) else p) 0

/-- R111's second loop: for each degree from 14 down to 8, highest first, clear it by XOR with the shifted modulus. -/
def gfReduce (p : BitVec 15) : BitVec 15 :=
  [14, 13, 12, 11, 10, 9, 8].foldl
    (fun p d => if p.getLsbD d then p ^^^ (0x11B#15 <<< (d - 8)) else p) p

/-- `gf_mul(a, b)`: multiplication modulo `0x11B` (R110, R111). -/
def gfMul (a b : Byte) : Byte := (gfReduce (gfProduct a b)).setWidth 8

/-! ### Inverse: the extended Euclidean algorithm of R114, polynomials held as natural numbers

Each loop of R114 has a bound as its first argument. A step of a loop lowers a degree, and no degree is above 8, so 9
steps are never too few. -/

/-- The carry-less product of two polynomials, `q` of degree at most 8. -/
def clmul (q s : Nat) : Nat :=
  [0, 1, 2, 3, 4, 5, 6, 7, 8].foldl (fun m i => if q.testBit i then m ^^^ (s <<< i) else m) 0

/-- The inner loop of R114: the division of `r` by `d`, quotient collected in `q`. -/
def polyDivide : Nat → Nat → Nat → Nat → Nat × Nat
  | 0, _, q, r => (q, r)
  | fuel + 1, d, q, r =>
    if r ≠ 0 ∧ d.log2 ≤ r.log2 then
      polyDivide fuel d (q ^^^ (1 <<< (r.log2 - d.log2))) (r ^^^ (d <<< (r.log2 - d.log2)))
    else (q, r)

/-- The outer loop of R114. -/
def euclid : Nat → Nat → Nat → Nat → Nat → Nat
  | 0, _, _, s0, _ => s0
  | fuel + 1, r0, r1, s0, s1 =>
    if r1 = 0 then s0
    else
      let qr := polyDivide 9 r1 0 r0
      euclid fuel r1 qr.2 s1 (s0 ^^^ clmul qr.1 s1)

/-- The last loop of R114: reduction modulo `0x11B`. -/
def polyReduce : Nat → Nat → Nat
  | 0, s => s
  | fuel + 1, s => if 8 ≤ s.log2 then polyReduce fuel (s ^^^ (0x11B <<< (s.log2 - 8))) else s

/-- `gf_inv(v)`: the inverse, and 0 for 0 (R114). -/
def gfInv (v : Byte) : Byte :=
  if v = 0 then 0 else BitVec.ofNat 8 (polyReduce 9 (euclid 9 0x11B v.toNat 0 1))

namespace Machine

/-- GFMUL (R112): `R <- gf_mul(A, B)`. -/
def execGfmul (s : State) : Host.Outcome State Fault Refusal := complete (s.setR (gfMul s.a s.b))

/-- GFINV (R115): `R <- gf_inv(A)`. -/
def execGfinv (s : State) : Host.Outcome State Fault Refusal := complete (s.setR (gfInv s.a))

end Machine

end Sys2Proof
end

