-- ==== Sys2Proof/Machine/Diffusion.lean ====
section
/-! DEFINITION. The diffusion layer (R130 to R136) and the commands THETA and THETAI. -/

namespace Sys2Proof

/-- A byte of a group's product with the 3×3 matrix: `d` times the byte in its own place, `o` times the other two. -/
def mixByte (d o own other1 other2 : Byte) : Byte := gfMul d own ^^^ gfMul o other1 ^^^ gfMul o other2

/-- Each group `3g, 3g+1, 3g+2` of a block times the 3×3 matrix with diagonal `d` and off-diagonal `o`; every output byte
reads the input block (R130, R131, R133). -/
def mixGroups (d o : Byte) (x : Block) : Block :=
  #v[mixByte d o x[0] x[1] x[2],   mixByte d o x[1] x[0] x[2],   mixByte d o x[2] x[0] x[1],
     mixByte d o x[3] x[4] x[5],   mixByte d o x[4] x[3] x[5],   mixByte d o x[5] x[3] x[4],
     mixByte d o x[6] x[7] x[8],   mixByte d o x[7] x[6] x[8],   mixByte d o x[8] x[6] x[7],
     mixByte d o x[9] x[10] x[11], mixByte d o x[10] x[9] x[11], mixByte d o x[11] x[9] x[10]]

/-- `theta(x)`: diagonal 3, off-diagonal 2 (R131). -/
def theta (x : Block) : Block := mixGroups 3 2 x

/-- `theta_inv(x)`: diagonal 246, off-diagonal 247 (R133). -/
def thetaInv (x : Block) : Block := mixGroups 246 247 x

namespace Machine

/-- THETA (R132): `Y <- theta(X)`. -/
def execTheta (s : State) : Host.Outcome State Fault Refusal := complete (s.setY (theta s.x))

/-- THETAI (R134): `Y <- theta_inv(X)`. -/
def execThetai (s : State) : Host.Outcome State Fault Refusal := complete (s.setY (thetaInv s.x))

end Machine

end Sys2Proof
end

