-- ==== Sys2Proof/Machine/Sbox.lean ====
section
/-! DEFINITION. The affine map and the S-box (R120 to R126) and the commands AFFINE and SBOX. -/

namespace Sys2Proof

/-- `affine(v)`: output bit `i` is the parity of `AFF_ROW[i] & v`, XOR bit `i` of `AFF_C` (R120). -/
def affine (c : Config) (v : Byte) : Byte := gf2Linear c.affRow v ^^^ c.affC

/-- `sbox(v) = affine(gf_inv(v))` (R123). -/
def sbox (c : Config) (v : Byte) : Byte := affine c (gfInv v)

/-- `sbox` on each of the 12 bytes (R123). -/
def sboxBlock (c : Config) (x : Block) : Block := Block.ofFn fun i => sbox c x[i]

namespace Machine

/-- AFFINE (R122): `R <- affine(A)`. -/
def execAffine (s : State) : Host.Outcome State Fault Refusal := complete (s.setR (affine s.config s.a))

/-- SBOX (R124): `R <- sbox(A)`. -/
def execSbox (s : State) : Host.Outcome State Fault Refusal := complete (s.setR (sbox s.config s.a))

end Machine

end Sys2Proof
end

