-- ==== Sys2Proof/Machine/KeySchedule.lean ====
section
/-! DEFINITION. The round constants and the key schedule (R145 to R151) and the command KSNEXT. -/

namespace Sys2Proof

/-- `rc(t)`: the field element 2 to the power `t`, by repeated doubling (R145). -/
def rc : Nat → Byte
  | 0 => 1
  | t + 1 => gfMul (rc t) 2

/-- Byte `j` of the first group of a new round key (R146). -/
def ksFirst (c : Config) (prev : Block) (t : Nat) (j : Fin 3) : Byte :=
  (if c.ksFeed then prev[j.val] else 0) ^^^ sbox c prev[c.ksSrc[j]] ^^^ (if c.ksRcl[j] then rc t else 0)

/-- `ks_next(prev, t)`: the first group, then each group the XOR of the previous key's group and the group of the new key
before it (R146). -/
def ksNext (c : Config) (prev : Block) (t : Nat) : Block :=
  let n0 := ksFirst c prev t 0
  let n1 := ksFirst c prev t 1
  let n2 := ksFirst c prev t 2
  let n3 := prev[3] ^^^ n0
  let n4 := prev[4] ^^^ n1
  let n5 := prev[5] ^^^ n2
  let n6 := prev[6] ^^^ n3
  let n7 := prev[7] ^^^ n4
  let n8 := prev[8] ^^^ n5
  #v[n0, n1, n2, n3, n4, n5, n6, n7, n8, prev[9] ^^^ n6, prev[10] ^^^ n7, prev[11] ^^^ n8]

namespace Machine

/-- KSNEXT (R148): `Y <- ks_next(X, T)`, `T` as an unsigned integer 0..255. -/
def execKsnext (s : State) : Host.Outcome State Fault Refusal :=
  complete (s.setY (ksNext s.config s.x s.t.toNat))

end Machine

end Sys2Proof
end

