-- ==== Sys2Proof/Machine/Permutation.lean ====
section
/-! DEFINITION. The byte permutation layer (R140 to R142) and the command PERM. -/

namespace Sys2Proof

/-- The gather list `PI`: for each output position, the input position it is taken from (R140). -/
def gatherIndex : Vector (Fin 12) 12 := #v[0, 10, 8, 3, 1, 11, 6, 4, 2, 9, 7, 5]

/-- `perm(x)`: `y[i] <- x[PI[i]]` (R140). -/
def perm (x : Block) : Block := Block.ofFn fun i => x[gatherIndex[i]]

namespace Machine

/-- PERM (R141): `Y <- perm(X)`. -/
def execPerm (s : State) : Host.Outcome State Fault Refusal := complete (s.setY (perm s.x))

end Machine

end Sys2Proof
end

