-- ==== Sys2Proof/Machine/Cipher.lean ====
section
/-! DEFINITION. The block cipher (R155 to R161) and the command ENCBLK. -/

namespace Sys2Proof

/-- One round: `theta`, then the S-box on every byte, then the permutation, then the round key (R155). -/
def cipherRound (c : Config) (s rk : Block) : Block := (perm (sboxBlock c (theta s))).xor rk

/-- The rounds with the given indices, in order: each takes the round key from the one before it, then applies one round
(R150, R156). -/
def cipherRounds (c : Config) (s rk : Block) : List Nat → Block
  | [] => s
  | t :: ts => cipherRounds c (cipherRound c s (ksNext c rk t)) (ksNext c rk t) ts

/-- `enc_block(p, k)`: `theta_inv` of the plaintext, the raw key, then rounds 1 to 10 (R156, R157). -/
def encBlock (c : Config) (p k : Block) : Block :=
  cipherRounds c ((thetaInv p).xor k) k [1, 2, 3, 4, 5, 6, 7, 8, 9, 10]

namespace Machine

/-- ENCBLK (R158): `Y <- enc_block(X, KEY)`. No length is checked. -/
def execEncblk (s : State) : Host.Outcome State Fault Refusal :=
  complete (s.setY (encBlock s.config s.x s.key))

end Machine

end Sys2Proof
end

