-- ==== Sys2Proof/Machine/Operands.lean ====
section
/-! DEFINITION. The operands of the mode commands: length decoding (R95), the checks on the length registers in their
order (R211, R212), the data of a command (R32), the optional block of `HMAC` (R192). -/

namespace Sys2Proof.Machine

/-- The number of data bytes, `DATALEN div 8` (R95). -/
def State.dataBytes (s : State) : Nat := s.dataLen.toNat / 8

/-- The number of data blocks, `DATALEN div 96` (R95). -/
def State.dataBlocks (s : State) : Nat := s.dataLen.toNat / 96

/-- `DATALEN mod 96 = 0`. -/
def State.dataAligned (s : State) : Bool := s.dataLen.toNat % 96 == 0

/-- `DATALEN div 8 <= DBUF_BYTES` (R65). -/
def State.dataFits (s : State) : Bool := Nat.ble s.dataBytes s.config.dbufBytes

/-- The checks of `CTR` and `AE` (R166, R211). -/
def ctrChecks (s : State) : List (Bool × Status) :=
  [(s.dataLen != 0 && s.dataAligned, .invalidDataLength),
   (s.dataFits, .invalidDataLength),
   (s.nonceLen == 48, .invalidNonceLength)]

/-- The checks of `HASH` (R180, R211). -/
def hashChecks (s : State) : List (Bool × Status) :=
  [(s.dataAligned, .invalidDataLength),
   (s.dataFits, .invalidDataLength)]

/-- The checks of `HMAC` (R192, R211). -/
def hmacChecks (s : State) : List (Bool × Status) :=
  [(s.keyLen == 96, .invalidKeyLength),
   (s.dataAligned, .invalidDataLength),
   (s.dataFits, .invalidDataLength),
   (s.pfxLen == 0 || s.pfxLen == 96, .invalidDataLength)]

/-- The data of a mode command, `DBUF[0 .. DATALEN/8 - 1]`, as blocks (R32, R61, R95). -/
def State.data (s : State) : List Block := s.dbuf.readBlocks 0 s.dataBlocks

/-- Work on the data of a mode command; a byte of it that was never written stops the machine (R36). -/
def withData (s : State) (work : List Block → Host.Outcome State Fault Refusal) :
    Host.Outcome State Fault Refusal :=
  match s.dbuf.firstUnwritten 0 (12 * s.dataBlocks) with
  | some addr => .fault (.unwrittenData addr)
  | none => work s.data

/-- The optional block of `HMAC`: present exactly when `PREFIXLEN = 96` (R191, R192). -/
def State.optionalBlock (s : State) : Option Block := if s.pfxLen == 96 then some s.pfx else none

end Sys2Proof.Machine
end

