-- ==== Sys2Proof/Machine/CounterMode.lean ====
section
/-! DEFINITION. Counter mode (R165 to R173) and the command CTR. -/

namespace Sys2Proof

/-- The 48-bit big-endian integer in bytes 6..11 of a counter block (R62, R167). -/
def counterValue (cb : Block) : Nat :=
  cb[6].toNat * 256 ^ 5 + cb[7].toNat * 256 ^ 4 + cb[8].toNat * 256 ^ 3 +
  cb[9].toNat * 256 ^ 2 + cb[10].toNat * 256 + cb[11].toNat

/-- Byte `k` of an integer as 6 big-endian bytes: `(n div 256^(5-k)) mod 256` (R167). -/
def be48Byte (n k : Nat) : Byte := BitVec.ofNat 8 (n / 256 ^ (5 - k))

/-- Bytes 0..5 of `cb` with the counter `n`, taken modulo `2^48`, in bytes 6..11 (R167). -/
def withCounter (cb : Block) (n : Nat) : Block :=
  #v[cb[0], cb[1], cb[2], cb[3], cb[4], cb[5],
     be48Byte n 0, be48Byte n 1, be48Byte n 2, be48Byte n 3, be48Byte n 4, be48Byte n 5]

/-- `ctr_inc(cb)`: one is added to the counter modulo `2^48`; the nonce half stays (R167, R172). -/
def ctrInc (cb : Block) : Block := withCounter cb ((counterValue cb + 1) % 2 ^ 48)

/-- Counter mode from the counter block `cb` on: each block XOR its key stream block, then the increment (R168). -/
def ctrFrom (c : Config) (k cb : Block) : List Block → List Block
  | [] => []
  | d :: ds => d.xor (encBlock c cb k) :: ctrFrom c k (ctrInc cb) ds

/-- `ctr_apply(data, k, nonce)`: the counter block starts as `nonce || 0^6` (R165, R168). -/
def ctrApply (c : Config) (data : List Block) (k : Block) (n : Nonce) : List Block :=
  ctrFrom c k (nonceBlock n) data

namespace Machine

/-- CTR (R169): the checks of R166, then the data is replaced by its counter-mode image, in place. -/
def execCtr (s : State) : Host.Outcome State Fault Refusal :=
  validated (ctrChecks s) s fun s =>
    withData s fun data => complete (s.setData (ctrApply s.config data s.key s.nonce))

end Machine

end Sys2Proof
end

