-- ==== Sys2Proof/Machine/Hash.lean ====
section
/-! DEFINITION. The Davies-Meyer hash (R180 to R184) and the command HASH. -/

namespace Sys2Proof

/-- One step of the hash: the message block is the cipher's key, the chaining value its plaintext (R181). -/
def dmStep (c : Config) (h m : Block) : Block := (encBlock c h m).xor h

/-- `dm_hash(m)`: the chaining value starts at `0^12` and takes one step a block, in order (R181, R184). -/
def dmHash (c : Config) (m : List Block) : Block := m.foldl (dmStep c) (Block.const 0)

namespace Machine

/-- HASH (R182): the checks of R180, then `Y <- dm_hash(data)`. `DBUF` is only read. -/
def execHash (s : State) : Host.Outcome State Fault Refusal :=
  validated (hashChecks s) s fun s =>
    withData s fun data => complete (s.setY (dmHash s.config data))

end Machine

end Sys2Proof
end

