-- ==== Sys2Proof/Machine/Hmac.lean ====
section
/-! DEFINITION. The HMAC (R190 to R195) and the command HMAC. -/

namespace Sys2Proof

/-- `hmac_tag(data, k, prefix)`: the inner hash over `k ^ 0x36^12`, the optional block and the data; the outer hash over
`k ^ 0x5C^12` and the inner digest (R190). -/
def hmacTag (c : Config) (data : List Block) (k : Block) (first : Option Block) : Block :=
  let ik := k.xor (Block.const 0x36)
  let ok := k.xor (Block.const 0x5C)
  let tail := first.toList ++ data
  let inner := dmHash c (ik :: tail)
  dmHash c [ok, inner]

namespace Machine

/-- HMAC (R191): the checks of R192, then `Y <- hmac_tag(data, KEY, PREFIX if PREFIXLEN = 96)`. -/
def execHmac (s : State) : Host.Outcome State Fault Refusal :=
  validated (hmacChecks s) s fun s =>
    withData s fun data => complete (s.setY (hmacTag s.config data s.key s.optionalBlock))

end Machine

end Sys2Proof
end

