-- ==== Sys2Proof/Machine/AuthEnc.lean ====
section
/-! DEFINITION. Authenticated encryption, Encrypt-then-MAC (R200 to R204), and the command AE. -/

namespace Sys2Proof

/-- `ae_seal(data, k, nonce)`: the counter-mode ciphertext, and the tag over `nonce || 0^6` and the ciphertext (R200). -/
def aeSeal (c : Config) (data : List Block) (k : Block) (n : Nonce) : List Block × Block :=
  let ct := ctrApply c data k n
  (ct, hmacTag c ct k (some (nonceBlock n)))

namespace Machine

/-- AE (R201): the checks of CTR, then the data becomes the ciphertext, in place, and `Y` the tag (R202). -/
def execAe (s : State) : Host.Outcome State Fault Refusal :=
  validated (ctrChecks s) s fun s =>
    withData s fun data =>
      complete ((s.setData (aeSeal s.config data s.key s.nonce).1).setY (aeSeal s.config data s.key s.nonce).2)

end Machine

end Sys2Proof
end

