-- ==== Sys2Proof/Machine/Dispatch.lean ====
section
/-! DEFINITION. One arm per command. -/

namespace Sys2Proof.Machine

/-- The command's rule on the state as it is (R91): the checks, the result, the status and the flags of its completion. -/
def exec (i : Instr) (s : State) : Host.Outcome State Fault Refusal :=
  match i with
  | .gfmul => Sys2Proof.Machine.execGfmul s
  | .gfinv => Sys2Proof.Machine.execGfinv s
  | .affine => Sys2Proof.Machine.execAffine s
  | .sbox => Sys2Proof.Machine.execSbox s
  | .theta => Sys2Proof.Machine.execTheta s
  | .thetai => Sys2Proof.Machine.execThetai s
  | .perm => Sys2Proof.Machine.execPerm s
  | .ksnext => Sys2Proof.Machine.execKsnext s
  | .encblk => Sys2Proof.Machine.execEncblk s
  | .ctr => Sys2Proof.Machine.execCtr s
  | .hash => Sys2Proof.Machine.execHash s
  | .hmac => Sys2Proof.Machine.execHmac s
  | .ae => Sys2Proof.Machine.execAe s

end Sys2Proof.Machine
end

