-- ==== Sys2Proof/Machine/Step.lean ====
section
/-! DEFINITION. One step: the next move of the agenda, made by the host, by the core or by the reset (R15, R74). -/

namespace Sys2Proof.Machine

/-- One step. The host makes one access; or the core has its turn and, if busy, runs the whole command in progress as one
transition (R75), and if idle does nothing (R240); or the core is reset. -/
def step (s : State) : Host.Outcome State Fault Refusal :=
  match s.popEvent with
  | (.host acc, s') => s'.access acc
  | (.reset, s') => .next s'.resetEvent
  | (.core, s') =>
    if s'.flags.busy then
      match s'.fetch with
      | .ok i => exec i s'
      | .error f => .fault f
    else .next s'

/-- `s` with the command byte of a table word issued and the next move the core's, so that the next step runs it
(notes/assumptions/8.md). -/
def State.withFetchWord (s : State) (nbits w : Nat) : State := s.placeCommand (tableByte nbits w)

end Sys2Proof.Machine
end

