-- ==== Sys2Proof/WellFormed.lean ====
section
/-! DEFINITION. Well-formedness: of the parameters (the constraints of R8, one named check each) and of a command. -/

namespace Sys2Proof

/-- R8: `DBUF_BYTES` is a multiple of 12. -/
abbrev Config.CapacityBlocks (c : Config) : Prop := c.dbufBytes % 12 = 0

/-- R8: `DBUF_BYTES` is at least 12. -/
abbrev Config.CapacityPositive (c : Config) : Prop := 12 ≤ c.dbufBytes

/-- R8: `8*DBUF_BYTES < 2^32`. -/
abbrev Config.CapacityAddressable (c : Config) : Prop := 8 * c.dbufBytes < 2 ^ 32

/-- R8: the 8×8 matrix of the affine map is invertible. Said of a square matrix over the field GF(2): only the zero byte
maps to the zero byte. -/
abbrev Config.MatrixInvertible (c : Config) : Prop :=
  ∀ v : Fin 256, gf2Linear c.affRow (BitVec.ofFin v) = 0 → v = 0

/-- The constraints of R8 together. (`KS_SRC`, `KS_RCL` and `KS_FEED` are in range by their types.) -/
abbrev Config.Admissible (c : Config) : Prop :=
  c.CapacityBlocks ∧ c.CapacityPositive ∧ c.CapacityAddressable ∧ c.MatrixInvertible

/-- A command is well formed whatever it is: it has no register, immediate, mode or function field to check (R90). -/
def Instr.wf : Instr → Bool
  | .gfmul => true
  | .gfinv => true
  | .affine => true
  | .sbox => true
  | .theta => true
  | .thetai => true
  | .perm => true
  | .ksnext => true
  | .encblk => true
  | .ctr => true
  | .hash => true
  | .hmac => true
  | .ae => true

end Sys2Proof
end

