-- ==== Sys2Proof/Safety.lean ====
section
/-! DEFINITION. The terms the statements use: the invariant of every step, written data, the conditions under which a mode
command executes, the locations a command reads, the legal accesses. -/

namespace Sys2Proof.Machine

/-! ### The invariant -/

/-- What every step keeps: `BUSY` and `DONE` are never both 1 (R27); a busy core runs one of the thirteen commands (R91);
the buffer's list is in canonical form and inside the buffer (R32, R65). -/
abbrev State.Inv (s : State) : Prop :=
  ¬(s.flags.busy = true ∧ s.flags.done = true) ∧
  (s.flags.busy = true → isCommand s.cmd = true) ∧
  s.dbuf.wf ∧
  ∀ cell ∈ s.dbuf, cell.1 < s.config.dbufBytes

/-! ### When a mode command executes -/

/-- Every data byte `DBUF[0 .. DATALEN/8 - 1]` was written since reset (R32, R36). -/
abbrev State.DataWritten (s : State) : Prop := ∀ a < s.dataBytes, (s.dbuf.read a).isSome = true

/-- `CTR` and `AE` accept the data length (R211). -/
abbrev State.CtrLengthOk (s : State) : Prop :=
  s.dataLen ≠ 0 ∧ s.dataLen.toNat % 96 = 0 ∧ s.dataLen.toNat / 8 ≤ s.config.dbufBytes

/-- `HASH` and `HMAC` accept the data length (R211). -/
abbrev State.HashLengthOk (s : State) : Prop :=
  s.dataLen.toNat % 96 = 0 ∧ s.dataLen.toNat / 8 ≤ s.config.dbufBytes

/-- `HMAC` accepts the length of its optional block (R211). -/
abbrev State.PfxLengthOk (s : State) : Prop := s.pfxLen = 0 ∨ s.pfxLen = 96

/-- The checks of the command pass; a primitive command has none (R211). -/
abbrev State.ChecksPass (s : State) : Instr → Prop
  | .ctr => s.CtrLengthOk ∧ s.nonceLen = 48
  | .ae => s.CtrLengthOk ∧ s.nonceLen = 48
  | .hash => s.HashLengthOk
  | .hmac => s.keyLen = 96 ∧ s.HashLengthOk ∧ s.PfxLengthOk
  | _ => True

/-- The state after a command that ends with this status and writes nothing else (R214, R216). -/
def State.ended (s : State) (st : Status) : State :=
  { s with status := st, flags := { s.flags with busy := false, done := true } }

/-- The data of a mode command is this sequence of blocks: byte `j` of block `i` is `DBUF[12*i + j]` (R32, R61). -/
abbrev State.HoldsData (s : State) (bs : List Block) : Prop :=
  bs.length = s.dataBlocks ∧
  ∀ (i : Nat) (hi : i < bs.length) (j : Nat) (hj : j < 12), s.dbuf.read (12 * i + j) = some bs[i][j]

/-! ### Runs -/

/-- `n` steps, up to the first fault or refusal. -/
def runSteps : Nat → State → Host.Outcome State Fault Refusal
  | 0, s => .next s
  | n + 1, s =>
    match step s with
    | .next t => runSteps n t
    | .fault f => .fault f
    | .refused r => .refused r

/-! ### Frames -/

/-- The locations no command writes have the same value (R34), and so have `ILLEGAL` and the model's own fields. -/
abbrev State.SameInputs (s t : State) : Prop :=
  t.a = s.a ∧ t.b = s.b ∧ t.t = s.t ∧ t.x = s.x ∧ t.key = s.key ∧ t.nonce = s.nonce ∧ t.pfx = s.pfx ∧
  t.dataLen = s.dataLen ∧ t.keyLen = s.keyLen ∧ t.nonceLen = s.nonceLen ∧ t.pfxLen = s.pfxLen ∧ t.cmd = s.cmd ∧
  t.flags.illegal = s.flags.illegal ∧ t.config = s.config ∧ t.agenda = s.agenda ∧ t.replies = s.replies ∧
  t.freeCount = s.freeCount

/-- The commands whose result goes to `R` (R22). -/
def writesR : Instr → Bool
  | .gfmul => true
  | .gfinv => true
  | .affine => true
  | .sbox => true
  | _ => false

/-- The commands that write `Y` when they succeed (R23). -/
def writesY : Instr → Bool
  | .theta => true
  | .thetai => true
  | .perm => true
  | .ksnext => true
  | .encblk => true
  | .hash => true
  | .hmac => true
  | .ae => true
  | _ => false

/-- The commands that write the data buffer when they succeed (R32). -/
def writesData : Instr → Bool
  | .ctr => true
  | .ae => true
  | _ => false

/-- The same data: the same length and the same bytes, written or not (R32). -/
abbrev State.SameData (s t : State) : Prop :=
  s.dataLen = t.dataLen ∧ ∀ a < s.dataBytes, s.dbuf.read a = t.dbuf.read a

/-- Two states hold the same values in every location that the command reads, the "reads" column of R94. The last case of
`HMAC` reads the optional block only where it is present. -/
abbrev State.SameReads (i : Instr) (s t : State) : Prop :=
  match i with
  | .gfmul => s.a = t.a ∧ s.b = t.b
  | .gfinv => s.a = t.a
  | .affine => s.a = t.a
  | .sbox => s.a = t.a
  | .theta => s.x = t.x
  | .thetai => s.x = t.x
  | .perm => s.x = t.x
  | .ksnext => s.x = t.x ∧ s.t = t.t
  | .encblk => s.x = t.x ∧ s.key = t.key
  | .ctr => s.nonceLen = t.nonceLen ∧ s.key = t.key ∧ s.nonce = t.nonce ∧ s.SameData t
  | .hash => s.SameData t
  | .hmac => s.keyLen = t.keyLen ∧ s.pfxLen = t.pfxLen ∧ s.key = t.key ∧ (s.pfxLen = 96 → s.pfx = t.pfx) ∧ s.SameData t
  | .ae => s.nonceLen = t.nonceLen ∧ s.key = t.key ∧ s.nonce = t.nonce ∧ s.SameData t

/-- The statuses a command can end with, the last column of R94. -/
def possibleStatuses : Instr → List Status
  | .ctr => [.ok, .invalidDataLength, .invalidNonceLength]
  | .hash => [.ok, .invalidDataLength]
  | .hmac => [.ok, .invalidKeyLength, .invalidDataLength]
  | .ae => [.ok, .invalidDataLength, .invalidNonceLength]
  | _ => [.ok]

/-! ### The address map -/

/-- The offsets of R71 with byte access, of a buffer of `cap` bytes. -/
abbrev ByteOffset (cap o : Nat) : Prop :=
  o ≤ 0x0006 ∨ (0x0020 ≤ o ∧ o < 0x002C) ∨ (0x0030 ≤ o ∧ o < 0x0036) ∨ (0x0040 ≤ o ∧ o < 0x004C) ∨
  (0x0050 ≤ o ∧ o < 0x005C) ∨ (0x0060 ≤ o ∧ o < 0x006C) ∨ (0x1000 ≤ o ∧ o < 0x1000 + cap)

/-- The read-only ones among them: `FLAGS`, `STATUS`, `R`, `Y` (R71). -/
abbrev ReadOnlyOffset (o : Nat) : Prop :=
  o = 0x0001 ∨ o = 0x0002 ∨ o = 0x0006 ∨ (0x0060 ≤ o ∧ o < 0x006C)

/-- The offsets of R71 with 32-bit access. -/
abbrev WordOffset (o : Nat) : Prop := o = 0x0008 ∨ o = 0x000C ∨ o = 0x0010 ∨ o = 0x0014

end Sys2Proof.Machine
end

