-- ==== Sys2Proof/Certificates/Slice0/Obligations.lean ====
section
/-! DEFINITION. The statements for the provers. Each docstring names the rules of spec/ that it formalises. -/

namespace Sys2Proof

/-- The polynomial over GF(2) that a byte stands for (R110). -/
noncomputable def bytePolynomial (v : Byte) : Polynomial (ZMod 2) :=
  ∑ i ∈ Finset.range 8, if v.getLsbD i then Polynomial.X ^ i else 0

/-- The field modulus `x^8 + x^4 + x^3 + x + 1`, that is `0x11B` (R110). -/
noncomputable def fieldModulus : Polynomial (ZMod 2) :=
  Polynomial.X ^ 8 + Polynomial.X ^ 4 + Polynomial.X ^ 3 + Polynomial.X + 1

/-- Round key `t` of a key (R150). -/
def roundKey (c : Config) (k : Block) : Nat → Block
  | 0 => k
  | t + 1 => ksNext c (roundKey c k t) (t + 1)

/-- The cipher state after round `t`, before the first round for `t = 0` (R155, R156). -/
def stateAfterRound (c : Config) (p k : Block) : Nat → Block
  | 0 => (thetaInv p).xor k
  | t + 1 => (perm (sboxBlock c (theta (stateAfterRound c p k t)))).xor (roundKey c k (t + 1))

/-- The block `00 01 02 ... 0B` of the worked examples. -/
def countingBlock : Block := Block.ofFn fun i => BitVec.ofNat 8 i.val

end Sys2Proof

open Sys2Proof Sys2Proof.Machine

/-! ### Encoding -/

/-- R90: every command is one byte long; decoding the encoding of a command, whatever follows, gives it back; and what
decodes is an encoding. -/
def Obligations.DecodeAndEncodeAgree : Prop :=
  (∀ (i : Instr) (rest : List Byte), (encode i).length = 1 ∧ decode (encode i ++ rest) = .ok (i, rest)) ∧
  (∀ (bytes : List Byte) (i : Instr) (rest : List Byte), decode bytes = .ok (i, rest) → bytes = encode i ++ rest)

/-- R92: the thirteen codes, bit by bit; in match/mask form every row matches its code under the mask `0xFF`. -/
def Obligations.OpcodeWordsDecode : Prop :=
  decodeTableWord 8 0b00000001 = some .gfmul ∧ decodeTableWord 8 0b00000010 = some .gfinv ∧
  decodeTableWord 8 0b00000011 = some .affine ∧ decodeTableWord 8 0b00000100 = some .sbox ∧
  decodeTableWord 8 0b00000101 = some .theta ∧ decodeTableWord 8 0b00000110 = some .thetai ∧
  decodeTableWord 8 0b00000111 = some .perm ∧ decodeTableWord 8 0b00001000 = some .ksnext ∧
  decodeTableWord 8 0b00001001 = some .encblk ∧ decodeTableWord 8 0b00001010 = some .ctr ∧
  decodeTableWord 8 0b00001011 = some .hash ∧ decodeTableWord 8 0b00001100 = some .hmac ∧
  decodeTableWord 8 0b00001101 = some .ae ∧
  ∀ row ∈ opcodeTable, row.pattern = opcode row.instr ∧ row.mask = 0xFF

/-- R96: the reserved codes are `0x00` and `0x0E` to `0xFF`; issuing one takes the code into `CMD` and sets `ILLEGAL`, and
changes nothing else. -/
def Obligations.ReservedCodeStartsNothing : Prop :=
  ∀ (s : State) (c : Byte),
    (isCommand c = false ↔ c = 0x00 ∨ 0x0E ≤ c.toNat) ∧
    (s.flags.busy = false → isCommand c = false →
      s.access (.write8 0x0000 c) = .next { s with cmd := c, flags := { s.flags with illegal := true } })

/-- From R91: the issue of a command, of a reserved code, and the dropped write while busy. That the host's write and the
core's run are two moves on the agenda is the model's choice (log entry 6). -/
def Obligations.IssueByWriteToCmd : Prop :=
  ∀ (s : State) (c : Byte),
    (∀ i, s.flags.busy = false → c = opcode i →
      s.access (.write8 0x0000 c) = .next { s with cmd := c, flags := { s.flags with done := false, busy := true } } ∧
      ∀ es, step ({ s with cmd := c, flags := { s.flags with done := false, busy := true }, agenda := .core :: es }) =
        exec i { s with cmd := c, flags := { s.flags with done := false, busy := true }, agenda := es }) ∧
    (∀ i t, exec i s = .next t → t.flags.busy = false ∧ t.flags.done = true) ∧
    (s.flags.busy = false → (∀ i, c ≠ opcode i) →
      s.access (.write8 0x0000 c) = .next { s with cmd := c, flags := { s.flags with illegal := true } }) ∧
    (s.flags.busy = true → s.access (.write8 0x0000 c) = .next { s with flags := { s.flags with illegal := true } })

/-! ### The step -/

/-- R75, R82: when the core has its turn and is busy, a step is the meaning of the command whose code the issue left in
`CMD`, on the state with that turn taken off the agenda. -/
def Obligations.StepRunsTheIssuedCommand : Prop :=
  ∀ (s : State) (i : Instr) (rest : List Byte), s.flags.busy = true → decode [s.cmd] = .ok (i, rest) →
    (∀ es, s.agenda = .core :: es → step s = exec i { s with agenda := es }) ∧
    (s.agenda = [] → step s = exec i s)

/-- R15, R240: the other moves: the host makes its access, the reset resets, and an idle core does nothing. -/
def Obligations.StepMakesTheNextMove : Prop :=
  ∀ (s : State) (es : List Event),
    (∀ acc, step { s with agenda := .host acc :: es } = ({ s with agenda := es } : State).access acc) ∧
    step { s with agenda := .reset :: es } = .next ({ s with agenda := es } : State).resetEvent ∧
    (s.flags.busy = false → step { s with agenda := .core :: es } = .next { s with agenda := es }) ∧
    (s.flags.busy = false → s.agenda = [] → step s = .next s)

/-- R91: after the placement of a command's code, the next step runs that command on the state that its issue leaves. The
placement itself is the model's (log entry 8). -/
def Obligations.PlacedCommandRunsNext : Prop :=
  ∀ (s : State) (i : Instr), step (s.withFetchWord 8 (opcode i).toNat) =
    exec i { s with cmd := opcode i, flags := { s.flags with done := false, busy := true } }

/-! ### Field arithmetic -/

/-- R110: bytes as polynomials over GF(2), addition as XOR, every element its own negative, multiplication modulo
`x^8 + x^4 + x^3 + x + 1`. -/
def Obligations.GfMulIsThePolynomialProduct : Prop :=
  ∀ a b : Byte,
    a ^^^ a = 0 ∧
    bytePolynomial (a ^^^ b) = bytePolynomial a + bytePolynomial b ∧
    bytePolynomial (gfMul a b) = (bytePolynomial a * bytePolynomial b) %ₘ fieldModulus

/-- The laws of the field multiplication, and doubling: the first two are D0's contract, the others the inference that R113
marks "because it is the multiplication of a field [derived: from rule R110 and the quoted contract]". -/
def Obligations.GfMulFieldLaws : Prop :=
  ∀ a b c : Byte,
    gfMul a b = gfMul b a ∧ gfMul a 0 = 0 ∧ gfMul a 1 = a ∧
    gfMul (gfMul a b) c = gfMul a (gfMul b c) ∧
    gfMul a (b ^^^ c) = gfMul a b ^^^ gfMul a c ∧
    (gfMul a b = 0 → a = 0 ∨ b = 0) ∧
    gfMul a 2 = if a.getLsbD 7 then (a <<< 1) ^^^ 0x1B else a <<< 1

/-- R112: the command GFMUL and its corner cases. -/
def Obligations.GfmulResult : Prop :=
  ∀ s : State, exec .gfmul s = .next (({ s with r := gfMul s.a s.b } : State).ended .ok) ∧
    (s.a = 0 ∨ s.b = 0 → gfMul s.a s.b = 0) ∧ (s.b = 1 → gfMul s.a s.b = s.a)

/-- R114: 0 for 0, and for every other byte the one byte whose product with it is 1. That there is only one is the inference
that R114 marks "is unique because `M` is irreducible [derived: from rule R110]". -/
def Obligations.GfInvIsTheInverse : Prop :=
  gfInv 0 = 0 ∧ ∀ v x : Byte, v ≠ 0 → (gfMul v x = 1 ↔ x = gfInv v)

/-- The laws of the inverse, the inference of the spec's own: R116, "Laws of `gf_inv` [derived: from rule R114]". -/
def Obligations.GfInvLaws : Prop :=
  gfInv 0 = 0 ∧ gfInv 1 = 1 ∧ (∀ v : Byte, v ≠ 0 → gfMul v (gfInv v) = 1) ∧
  (∀ v : Byte, gfInv (gfInv v) = v) ∧ Function.Bijective gfInv

/-- R115: the command GFINV and its corner cases. -/
def Obligations.GfinvResult : Prop :=
  ∀ s : State, exec .gfinv s = .next (({ s with r := gfInv s.a } : State).ended .ok) ∧
    (s.a = 0 → gfInv s.a = 0) ∧ (s.a = 1 → gfInv s.a = 1)

/-! ### The S-box -/

/-- R120: output bit `i` is the XOR of the input bits that row `i` selects, XOR bit `i` of the constant; R121: the reference
parameters and the same written out for them. -/
def Obligations.AffineOutputBits : Prop :=
  (∀ (c : Config) (v : Byte) (i : Fin 8), (affine c v).getLsbD i =
    ((List.finRange 8).foldl (fun p j => p ^^ (c.affRow[i].getLsbD j && v.getLsbD j)) false ^^ c.affC.getLsbD i)) ∧
  (∀ (v : Byte) (i : Nat), i < 8 → (affine .reference v).getLsbD i =
    (v.getLsbD i ^^ v.getLsbD ((i + 4) % 8) ^^ v.getLsbD ((i + 5) % 8) ^^ v.getLsbD ((i + 6) % 8) ^^
      v.getLsbD ((i + 7) % 8) ^^ (0x63 : Byte).getLsbD i)) ∧
  Config.reference.affRow = #v[0xF1, 0xE3, 0xC7, 0x8F, 0x1F, 0x3E, 0x7C, 0xF8] ∧ Config.reference.affC = 0x63

/-- R122: the command AFFINE and its corner case. -/
def Obligations.AffineResult : Prop :=
  ∀ s : State, exec .affine s = .next (({ s with r := affine s.config s.a } : State).ended .ok) ∧
    (s.a = 0 → affine s.config s.a = s.config.affC)

/-- The S-box is a bijection exactly when the matrix is invertible, and the reference matrix is: the required property of
R125 and the inference it marks "the property holds exactly when the GF(2) matrix ... is invertible [derived: ...]". -/
def Obligations.SboxBijectiveExactlyWhenInvertible : Prop :=
  (∀ c : Config, Function.Bijective (sbox c) ↔ c.MatrixInvertible) ∧ Config.reference.MatrixInvertible

/-- R123, R124: the S-box is the inverse and then the affine map, on a block byte by byte; the command SBOX and its corner
cases. -/
def Obligations.SboxResult : Prop :=
  (∀ s : State, exec .sbox s = .next (({ s with r := affine s.config (gfInv s.a) } : State).ended .ok) ∧
    (s.a = 0 → affine s.config (gfInv s.a) = s.config.affC) ∧
    (s.a = 1 → affine s.config (gfInv s.a) = affine s.config 1)) ∧
  (∀ (c : Config) (x : Block) (i : Nat) (hi : i < 12), (sboxBlock c x)[i] = affine c (gfInv x[i]))

/-! ### Diffusion and permutation -/

/-- R131, R132: the command THETA: each group times the matrix with diagonal 3 and off-diagonal 2, and the corner cases. -/
def Obligations.ThetaResult : Prop :=
  (∀ s : State, ∃ y : Block, exec .theta s = .next (({ s with y := y } : State).ended .ok) ∧
    ∀ (g : Nat) (hg : g < 4),
      y[3 * g] = gfMul 3 s.x[3 * g] ^^^ gfMul 2 s.x[3 * g + 1] ^^^ gfMul 2 s.x[3 * g + 2] ∧
      y[3 * g + 1] = gfMul 2 s.x[3 * g] ^^^ gfMul 3 s.x[3 * g + 1] ^^^ gfMul 2 s.x[3 * g + 2] ∧
      y[3 * g + 2] = gfMul 2 s.x[3 * g] ^^^ gfMul 2 s.x[3 * g + 1] ^^^ gfMul 3 s.x[3 * g + 2] ∧
      (∀ a : Byte, s.x[3 * g] = a → s.x[3 * g + 1] = a → s.x[3 * g + 2] = a →
        ∀ (r : Nat) (hr : r < 3), y[3 * g + r] = gfMul 3 a)) ∧
  theta (Block.const 0) = Block.const 0 ∧ theta (Block.const 0xFF) = Block.const 0x1A

/-- From R134 and R133: the command THETAI: each group times the matrix with diagonal 246 and off-diagonal 247, and the corner
cases. Which coefficient is on the diagonal is the inference of R133: "It is forced by "the exact matrix inverse" [derived:
from rule R131 and `40_field_arithmetic.md` rules R113, R116]". -/
def Obligations.ThetaiResult : Prop :=
  (∀ s : State, ∃ y : Block, exec .thetai s = .next (({ s with y := y } : State).ended .ok) ∧
    ∀ (g : Nat) (hg : g < 4),
      y[3 * g] = gfMul 246 s.x[3 * g] ^^^ gfMul 247 s.x[3 * g + 1] ^^^ gfMul 247 s.x[3 * g + 2] ∧
      y[3 * g + 1] = gfMul 247 s.x[3 * g] ^^^ gfMul 246 s.x[3 * g + 1] ^^^ gfMul 247 s.x[3 * g + 2] ∧
      y[3 * g + 2] = gfMul 247 s.x[3 * g] ^^^ gfMul 247 s.x[3 * g + 1] ^^^ gfMul 246 s.x[3 * g + 2] ∧
      (∀ a : Byte, s.x[3 * g] = a → s.x[3 * g + 1] = a → s.x[3 * g + 2] = a →
        ∀ (r : Nat) (hr : r < 3), y[3 * g + r] = gfMul 246 a)) ∧
  thetaInv (Block.const 0) = Block.const 0

/-- R135: the round trip for every block, linearity, bijectivity. -/
def Obligations.DiffusionRoundTrip : Prop :=
  (∀ x : Block, thetaInv (theta x) = x) ∧
  (∀ x z : Block, theta (x.xor z) = (theta x).xor (theta z) ∧ thetaInv (x.xor z) = (thetaInv x).xor (thetaInv z)) ∧
  Function.Bijective theta ∧ Function.Bijective thetaInv

/-- What the spec infers of the diffusion layer: the equivalent form of R131 ("Equivalent form [derived: ...]") and of R133,
with the coefficient 247 that R133 marks derived; and R136 ("[derived: from rules R131, R133]"): a group of the output
depends on the same group of the input only, and the S-box and the XOR act byte by byte. -/
def Obligations.DiffusionEquivalentFormAndLanes : Prop :=
  (∀ (x : Block) (g : Nat) (hg : g < 4) (r : Nat) (hr : r < 3),
    (theta x)[3 * g + r] = x[3 * g + r] ^^^ gfMul 2 (x[3 * g] ^^^ x[3 * g + 1] ^^^ x[3 * g + 2]) ∧
    (thetaInv x)[3 * g + r] = x[3 * g + r] ^^^ gfMul 247 (x[3 * g] ^^^ x[3 * g + 1] ^^^ x[3 * g + 2])) ∧
  gfMul 2 (gfInv 3) = 247 ∧
  ∀ (x z : Block),
    (∀ (g : Nat) (hg : g < 4),
      x[3 * g] = z[3 * g] → x[3 * g + 1] = z[3 * g + 1] → x[3 * g + 2] = z[3 * g + 2] →
      ∀ (r : Nat) (hr : r < 3),
        (theta x)[3 * g + r] = (theta z)[3 * g + r] ∧ (thetaInv x)[3 * g + r] = (thetaInv z)[3 * g + r]) ∧
    (∀ (c : Config) (i : Nat) (hi : i < 12), (sboxBlock c x)[i] = sbox c x[i] ∧ (x.xor z)[i] = x[i] ^^^ z[i])

/-- R140, R141: the command PERM: each output byte from the input position of the gather list, and the corner case. -/
def Obligations.PermResult : Prop :=
  (∀ s : State, ∃ y : Block, exec .perm s = .next (({ s with y := y } : State).ended .ok) ∧
    y[0] = s.x[0] ∧ y[1] = s.x[10] ∧ y[2] = s.x[8] ∧ y[3] = s.x[3] ∧ y[4] = s.x[1] ∧ y[5] = s.x[11] ∧
    y[6] = s.x[6] ∧ y[7] = s.x[4] ∧ y[8] = s.x[2] ∧ y[9] = s.x[9] ∧ y[10] = s.x[7] ∧ y[11] = s.x[5]) ∧
  (∀ v : Byte, perm (Block.const v) = Block.const v)

/-- R142, "Properties [derived: from rule R140]": the gather list is a permutation with these fixed points and this group
structure; the inverse gather list; linearity; the S-box commutes with the permutation. -/
def Obligations.PermProperties : Prop :=
  Function.Bijective (fun i : Fin 12 => gatherIndex[i]) ∧ Function.Bijective perm ∧
  (∀ i : Fin 12, gatherIndex[i] = i ↔ i = 0 ∨ i = 3 ∨ i = 6 ∨ i = 9) ∧
  (∀ (g : Nat) (hg : g < 4), (gatherIndex[3 * g]).val = 3 * g ∧
    (gatherIndex[3 * g + 1]).val = 3 * ((g + 3) % 4) + 1 ∧ (gatherIndex[3 * g + 2]).val = 3 * ((g + 2) % 4) + 2) ∧
  (∀ x : Block, #v[(perm x)[0], (perm x)[4], (perm x)[8], (perm x)[3], (perm x)[7], (perm x)[11],
    (perm x)[6], (perm x)[10], (perm x)[2], (perm x)[9], (perm x)[1], (perm x)[5]] = x) ∧
  (∀ x z : Block, perm (x.xor z) = (perm x).xor (perm z)) ∧
  (∀ (c : Config) (x : Block), perm (sboxBlock c x) = sboxBlock c (perm x))

/-! ### Key schedule and cipher -/

/-- R145, R149: the round constants by repeated doubling; their values and their period, which the two rules mark derived;
KSNEXT accepts every `T`. -/
def Obligations.RoundConstants : Prop :=
  rc 0 = 0x01 ∧ (∀ t, rc (t + 1) = gfMul (rc t) 2) ∧
  (List.range 11).map rc = [0x01, 0x02, 0x04, 0x08, 0x10, 0x20, 0x40, 0x80, 0x1B, 0x36, 0x6C] ∧
  rc 51 = 0x01 ∧ (∀ t, rc (t + 51) = rc t) ∧
  (∀ s : State, ∃ t, exec .ksnext s = .next t ∧ t.status = .ok)

/-- R146: every byte of a new round key, for all parameters, and the expanded form of the last loop. -/
def Obligations.KeyScheduleBytes : Prop :=
  ∀ (c : Config) (prev : Block) (t : Nat),
    (∀ (j : Nat) (hj : j < 3), (ksNext c prev t)[j] =
      (if c.ksFeed then prev[j] else 0) ^^^ sbox c prev[c.ksSrc[j]] ^^^ (if c.ksRcl[j] then rc t else 0)) ∧
    (∀ (g : Nat) (hg : 1 ≤ g ∧ g < 4) (j : Nat) (hj : j < 3),
      (ksNext c prev t)[3 * g + j] = prev[3 * g + j] ^^^ (ksNext c prev t)[3 * (g - 1) + j]) ∧
    (∀ (j : Nat) (hj : j < 3),
      (ksNext c prev t)[3 + j] = (ksNext c prev t)[j] ^^^ prev[3 + j] ∧
      (ksNext c prev t)[6 + j] = (ksNext c prev t)[j] ^^^ prev[3 + j] ^^^ prev[6 + j] ∧
      (ksNext c prev t)[9 + j] = (ksNext c prev t)[j] ^^^ prev[3 + j] ^^^ prev[6 + j] ^^^ prev[9 + j])

/-- R148: the command KSNEXT and its corner case. -/
def Obligations.KsnextResult : Prop :=
  (∀ s : State, exec .ksnext s = .next (({ s with y := ksNext s.config s.x s.t.toNat } : State).ended .ok)) ∧
  (∀ t : Nat, ksNext .reference (Block.const 0) t = Block.const (0x63 ^^^ rc t))

/-- Different round constants give different round keys, and the constants of rounds 1 to 10 differ: the inference of R151,
"differ whenever `rc(t) != rc(t')` and at least one `KS_RCL[j] = 1` [derived: from rule R146]". -/
def Obligations.RoundKeysDifferByRound : Prop :=
  (∀ (c : Config) (prev : Block) (t t' : Nat), rc t ≠ rc t' → (∃ j : Fin 3, c.ksRcl[j] = true) →
    ksNext c prev t ≠ ksNext c prev t') ∧
  (∀ t t' : Nat, 1 ≤ t → t ≤ 10 → 1 ≤ t' → t' ≤ 10 → t ≠ t' → rc t ≠ rc t')

/-- R150, R155, R156, R157: the inverse diffusion and the raw key, then ten rounds, each of diffusion, S-box, permutation and
round key, round key `t` from round key `t-1`. -/
def Obligations.EncBlockIsTenRounds : Prop :=
  ∀ (c : Config) (p k : Block), encBlock c p k = stateAfterRound c p k 10

/-- R158: the command ENCBLK; issued twice it gives the same `Y`. -/
def Obligations.EncblkResult : Prop :=
  (∀ s : State, exec .encblk s = .next (({ s with y := encBlock s.config s.x s.key } : State).ended .ok)) ∧
  (∀ s t : State, exec .encblk s = .next t → ∃ u, exec .encblk t = .next u ∧ u.y = t.y)

/-- For a fixed key the cipher is a bijection on blocks, for every admissible affine matrix: the inference of R159, "a
bijection on blocks, being a composition of bijections ... [derived: ...]". -/
def Obligations.EncBlockBijective : Prop :=
  ∀ (c : Config) (k : Block), c.MatrixInvertible → Function.Bijective fun p => encBlock c p k

/-! ### Counter mode -/

/-- R167: one is added to the 48-bit big-endian counter modulo `2^48`; the nonce half stays; the byte form. -/
def Obligations.CounterIncrement : Prop :=
  ∀ cb : Block,
    (∀ (i : Nat) (hi : i < 6), (ctrInc cb)[i] = cb[i]) ∧
    counterValue (ctrInc cb) = (counterValue cb + 1) % 2 ^ 48 ∧
    (∀ (i : Nat) (hi : 6 ≤ i ∧ i < 12),
      ((∀ (j : Nat) (hj : j < 12), i < j → cb[j] = 0xFF) → (ctrInc cb)[i] = cb[i] + 1) ∧
      ((∃ (j : Nat) (hj : j < 12), i < j ∧ cb[j] ≠ 0xFF) → (ctrInc cb)[i] = cb[i]))

/-- R171, R172: 256 increments carry into byte 10 and leave the nonce; the silent wrap. -/
def Obligations.CounterConfinement : Prop :=
  ∀ n : Nonce,
    ctrInc^[256] (nonceBlock n) = #v[n[0], n[1], n[2], n[3], n[4], n[5], 0, 0, 0, 0, 1, 0] ∧
    ctrInc #v[n[0], n[1], n[2], n[3], n[4], n[5], 0xFF, 0xFF, 0xFF, 0xFF, 0xFF, 0xFF] = nonceBlock n

/-- What R168 and R172 mark derived: block `i` is XORed with the encryption of `nonce || be48(i)`, and inside a command the
counter of block `i` is `i`, below `2^26`, so it does not wrap. -/
def Obligations.KeystreamOfEachBlock : Prop :=
  (∀ (c : Config) (data : List Block) (k : Block) (n : Nonce),
    (ctrApply c data k n).length = data.length ∧
    ∀ (i : Nat) (hi : i < data.length), (ctrApply c data k n)[i]? =
      some (data[i].xor (encBlock c #v[n[0], n[1], n[2], n[3], n[4], n[5],
        be48Byte i 0, be48Byte i 1, be48Byte i 2, be48Byte i 3, be48Byte i 4, be48Byte i 5] k))) ∧
  ∀ (n : Nonce) (s : State) (i : Nat), i < s.dataBlocks → counterValue (ctrInc^[i] (nonceBlock n)) = i ∧ i < 2 ^ 26

/-- R166, R169: the command CTR: its failures, and on success the data replaced in place and every other byte of the buffer
as it was. -/
def Obligations.CtrCommand : Prop :=
  ∀ s : State,
    (¬s.CtrLengthOk → exec .ctr s = .next (s.ended .invalidDataLength)) ∧
    (s.CtrLengthOk → s.nonceLen ≠ 48 → exec .ctr s = .next (s.ended .invalidNonceLength)) ∧
    (∀ data, s.CtrLengthOk → s.nonceLen = 48 → s.HoldsData data →
      ∃ m : Memory, exec .ctr s = .next (({ s with dbuf := m } : State).ended .ok) ∧
        ({ s with dbuf := m } : State).HoldsData (ctrApply s.config data s.key s.nonce) ∧
        ∀ a, 12 * s.dataBlocks ≤ a → m.read a = s.dbuf.read a)

/-- R170: two successful CTR commands leave the buffer as it was before the first. -/
def Obligations.CtrTwiceRestoresTheData : Prop :=
  ∀ s : State, s.CtrLengthOk → s.nonceLen = 48 → s.DataWritten →
    ∃ t u, exec .ctr s = .next t ∧ exec .ctr t = .next u ∧ t.status = .ok ∧ u.status = .ok ∧
      (∀ a, u.dbuf.read a = s.dbuf.read a) ∧ (s.dbuf.wf → u.dbuf = s.dbuf)

/-! ### Hash, HMAC, authenticated encryption -/

/-- R181: the chaining value starts at zero, and each block is the key of one step, the old value its plaintext and its
feed-forward. -/
def Obligations.HashChain : Prop :=
  ∀ (c : Config),
    dmHash c [] = Block.const 0 ∧
    ∀ (m : List Block) (b : Block), dmHash c (m ++ [b]) = (encBlock c (dmHash c m) b).xor (dmHash c m)

/-- R180, R182: the command HASH: its failures, its digest, the empty message. -/
def Obligations.HashCommand : Prop :=
  ∀ s : State,
    (¬s.HashLengthOk → exec .hash s = .next (s.ended .invalidDataLength)) ∧
    (∀ data, s.HashLengthOk → s.HoldsData data →
      exec .hash s = .next (({ s with y := dmHash s.config data } : State).ended .ok)) ∧
    (s.dataLen = 0 → exec .hash s = .next (({ s with y := Block.const 0 } : State).ended .ok))

/-- R190: the inner hash over the inner pad block, the optional block and the data; the outer hash over the outer pad block
and the inner digest. -/
def Obligations.HmacIsTwoHashes : Prop :=
  ∀ (c : Config) (data : List Block) (k p : Block),
    hmacTag c data k none =
      dmHash c [k.xor (Block.const 0x5C), dmHash c (k.xor (Block.const 0x36) :: data)] ∧
    hmacTag c data k (some p) =
      dmHash c [k.xor (Block.const 0x5C), dmHash c (k.xor (Block.const 0x36) :: p :: data)]

/-- R191, R192: the command HMAC: the key length first, then the data length and the length of the optional block; the tag,
with the optional block exactly when `PREFIXLEN = 96`. -/
def Obligations.HmacCommand : Prop :=
  ∀ s : State,
    (s.keyLen ≠ 96 → exec .hmac s = .next (s.ended .invalidKeyLength)) ∧
    (s.keyLen = 96 → ¬(s.HashLengthOk ∧ s.PfxLengthOk) → exec .hmac s = .next (s.ended .invalidDataLength)) ∧
    (∀ data, s.keyLen = 96 → s.HashLengthOk → s.HoldsData data →
      (s.pfxLen = 0 → exec .hmac s = .next (({ s with y := hmacTag s.config data s.key none } : State).ended .ok)) ∧
      (s.pfxLen = 96 →
        exec .hmac s = .next (({ s with y := hmacTag s.config data s.key (some s.pfx) } : State).ended .ok)))

/-- R200, R201, R202: the command AE: the failures of CTR, with nothing encrypted and no tag; on success the ciphertext in
place and the tag over `nonce || 0^6` and the ciphertext. -/
def Obligations.AeCommand : Prop :=
  ∀ s : State,
    (¬s.CtrLengthOk → exec .ae s = .next (s.ended .invalidDataLength)) ∧
    (s.CtrLengthOk → s.nonceLen ≠ 48 → exec .ae s = .next (s.ended .invalidNonceLength)) ∧
    (∀ data, s.CtrLengthOk → s.nonceLen = 48 → s.HoldsData data →
      ∃ m : Memory,
        exec .ae s = .next (({ s with
          dbuf := m,
          y := hmacTag s.config (ctrApply s.config data s.key s.nonce) s.key (some (nonceBlock s.nonce)) } : State).ended
            .ok) ∧
        ({ s with dbuf := m } : State).HoldsData (ctrApply s.config data s.key s.nonce) ∧
        ∀ a, 12 * s.dataBlocks ≤ a → m.read a = s.dbuf.read a)

/-- The inference of R203 ("returns exactly the tag `AE` produced ... [derived: ...]"): after AE, HMAC with `PREFIX = NONCE || 0^6`, `PREFIXLEN = 96` and `KEYLEN = 96` gives the tag that AE gave, and CTR
gives the data back. -/
def Obligations.AeTagIsRecomputedByHmac : Prop :=
  ∀ s : State, s.CtrLengthOk → s.nonceLen = 48 → s.DataWritten →
    ∃ t, exec .ae s = .next t ∧ t.status = .ok ∧
      (∃ u, exec .hmac { t with keyLen := 96, pfx := nonceBlock s.nonce, pfxLen := 96 } = .next u ∧
        u.status = .ok ∧ u.y = t.y) ∧
      (∃ u, exec .ctr t = .next u ∧ u.status = .ok ∧ ∀ a, u.dbuf.read a = s.dbuf.read a)

/-! ### What every command does and does not do -/

/-- The frame of every command, R34 ("Read-only guarantee ... [derived: from rules R21 to R32]"): no command writes an operand
register, `CMD` or `ILLEGAL`; what it writes is its result in `R` or `Y`, the data bytes (CTR and AE), `STATUS`, `BUSY` and
`DONE`. -/
def Obligations.CommandsWriteOnlyTheirResults : Prop :=
  ∀ (i : Instr) (s t : State), exec i s = .next t →
    s.SameInputs t ∧
    (writesR i = false → t.r = s.r) ∧
    (writesY i = false → t.y = s.y) ∧
    (writesData i = false → t.dbuf = s.dbuf) ∧
    (∀ a, s.dataBytes ≤ a → t.dbuf.read a = s.dbuf.read a)

/-- From the table of R94: a command's status and results depend on the locations in its "reads" column only, and its status
is one of its column's. -/
def Obligations.ResultsDependOnlyOnReads : Prop :=
  ∀ (i : Instr) (s t : State), s.config = t.config → s.SameReads i t →
    match exec i s, exec i t with
    | .next s', .next t' =>
      s'.status = t'.status ∧ s'.status ∈ possibleStatuses i ∧
      (writesR i = true → s'.r = t'.r) ∧
      (writesY i = true → s'.status = .ok → s'.y = t'.y) ∧
      (writesData i = true → ∀ a < s.dataBytes, s'.dbuf.read a = t'.dbuf.read a) ∧
      (s'.status ≠ .ok → s'.r = s.r ∧ s'.y = s.y ∧ s'.dbuf = s.dbuf)
    | .fault f, .fault g => f = g
    | _, _ => False

/-- R214: a failed command changes `STATUS` and the flags and nothing else. -/
def Obligations.FailedCommandChangesOnlyStatus : Prop :=
  ∀ (i : Instr) (s t : State), exec i s = .next t → t.status ≠ .ok →
    t = { s with status := t.status, flags := { s.flags with busy := false, done := true } }

/-- R216: a command that ends leaves the core idle and done; its status is 0 exactly when its checks pass, and so always for
the nine primitive commands. -/
def Obligations.CommandEndsIdleAndDone : Prop :=
  (∀ (i : Instr) (s t : State), exec i s = .next t →
    t.flags = { busy := false, done := true, illegal := s.flags.illegal } ∧ (s.ChecksPass i ↔ t.status.code = 0)) ∧
  (∀ (i : Instr) (s : State), possibleStatuses i = [.ok] → ∃ t, exec i s = .next t ∧ t.status.code = 0)

/-- The inference of R250 ("Every command completes ... [derived: ...]"): with its data written, every command completes, from
every state. -/
def Obligations.WrittenDataLetsEveryCommandComplete : Prop :=
  ∀ (i : Instr) (s : State), s.DataWritten →
    ∃ t, exec i s = .next t ∧ t.flags.busy = false ∧ t.flags.done = true ∧ (s.ChecksPass i ↔ t.status = .ok)

/-- R36 and log entry 3: a mode command whose checks pass and which meets a data byte that was never written stops at the
first such byte; a fault is what R36 tells a model to make of it. -/
def Obligations.UnwrittenDataStopsAModeCommand : Prop :=
  ∀ (i : Instr) (s : State) (a : Nat), possibleStatuses i ≠ [.ok] → s.ChecksPass i →
    a < s.dataBytes → s.dbuf.read a = none → (∀ z < a, (s.dbuf.read z).isSome = true) →
    exec i s = .fault (.unwrittenData a)

/-! ### The host's side -/

/-- From R71, R72 and R27: what each access of an idle core does at an offset that the address map lists. A byte of the buffer
that was written reads as that byte (the next statement says what a read of another one does); a write to a read-only
location only sets `ILLEGAL` (R72); the bits of `FLAGS` (R27). What the offsets that are not listed do, the statement after
the next says. -/
def Obligations.AccessByTheAddressMap : Prop :=
  (∀ s : State, s.flags.busy = false →
    s.access (.read8 0x0000) = .next (s.reply (.byte s.cmd)) ∧
    s.access (.read8 0x0001) = .next (s.reply (.byte s.flags.toByte)) ∧
    s.access (.read8 0x0002) = .next (s.reply (.byte s.status.code)) ∧
    s.access (.read8 0x0003) = .next (s.reply (.byte s.t)) ∧
    s.access (.read8 0x0004) = .next (s.reply (.byte s.a)) ∧
    s.access (.read8 0x0005) = .next (s.reply (.byte s.b)) ∧
    s.access (.read8 0x0006) = .next (s.reply (.byte s.r)) ∧
    s.access (.read32 0x0008) = .next (s.reply (.word s.dataLen)) ∧
    s.access (.read32 0x000C) = .next (s.reply (.word s.keyLen)) ∧
    s.access (.read32 0x0010) = .next (s.reply (.word s.nonceLen)) ∧
    s.access (.read32 0x0014) = .next (s.reply (.word s.pfxLen)) ∧
    (∀ (j : Nat) (hj : j < 12),
      s.access (.read8 (BitVec.ofNat 32 (0x0020 + j))) = .next (s.reply (.byte s.key[j])) ∧
      s.access (.read8 (BitVec.ofNat 32 (0x0040 + j))) = .next (s.reply (.byte s.pfx[j])) ∧
      s.access (.read8 (BitVec.ofNat 32 (0x0050 + j))) = .next (s.reply (.byte s.x[j])) ∧
      s.access (.read8 (BitVec.ofNat 32 (0x0060 + j))) = .next (s.reply (.byte s.y[j]))) ∧
    (∀ (j : Nat) (hj : j < 6),
      s.access (.read8 (BitVec.ofNat 32 (0x0030 + j))) = .next (s.reply (.byte s.nonce[j]))) ∧
    (∀ (a : Nat) (v : Byte), a < s.config.dbufBytes → 0x1000 + a < 2 ^ 32 → s.dbuf.read a = some v →
      s.access (.read8 (BitVec.ofNat 32 (0x1000 + a))) = .next (s.reply (.byte v)))) ∧
  (∀ (s : State) (v : Byte) (w : Word), s.flags.busy = false →
    s.access (.write8 0x0000 v) = .next (s.issue v) ∧
    s.access (.write8 0x0003 v) = .next { s with t := v } ∧
    s.access (.write8 0x0004 v) = .next { s with a := v } ∧
    s.access (.write8 0x0005 v) = .next { s with b := v } ∧
    s.access (.write32 0x0008 w) = .next { s with dataLen := w } ∧
    s.access (.write32 0x000C w) = .next { s with keyLen := w } ∧
    s.access (.write32 0x0010 w) = .next { s with nonceLen := w } ∧
    s.access (.write32 0x0014 w) = .next { s with pfxLen := w } ∧
    (∀ (j : Nat) (hj : j < 12),
      s.access (.write8 (BitVec.ofNat 32 (0x0020 + j)) v) = .next { s with key := s.key.set j v } ∧
      s.access (.write8 (BitVec.ofNat 32 (0x0040 + j)) v) = .next { s with pfx := s.pfx.set j v } ∧
      s.access (.write8 (BitVec.ofNat 32 (0x0050 + j)) v) = .next { s with x := s.x.set j v }) ∧
    (∀ (j : Nat) (hj : j < 6),
      s.access (.write8 (BitVec.ofNat 32 (0x0030 + j)) v) = .next { s with nonce := s.nonce.set j v }) ∧
    (∀ a : Nat, a < s.config.dbufBytes → 0x1000 + a < 2 ^ 32 →
      ∃ m : Memory, s.access (.write8 (BitVec.ofNat 32 (0x1000 + a)) v) = .next { s with dbuf := m } ∧
        m.read a = some v ∧ ∀ z, z ≠ a → m.read z = s.dbuf.read z) ∧
    (∀ off : Word, ReadOnlyOffset off.toNat →
      s.access (.write8 off v) = .next { s with flags := { s.flags with illegal := true } })) ∧
  (∀ f : Flags, f.toByte.getLsbD 0 = f.busy ∧ f.toByte.getLsbD 1 = f.done ∧ f.toByte.getLsbD 2 = f.illegal ∧
    ∀ k, 3 ≤ k → f.toByte.getLsbD k = false)

/-- What log entry 3 makes of R36: a host read, of an idle core, of a byte of the buffer that was never written since reset
stops with the fault that names the byte. -/
def Obligations.HostReadOfAnUnwrittenByteStops : Prop :=
  ∀ (s : State) (a : Nat), s.flags.busy = false → a < s.config.dbufBytes → 0x1000 + a < 2 ^ 32 → s.dbuf.read a = none →
    s.access (.read8 (BitVec.ofNat 32 (0x1000 + a))) = .fault (.unwrittenData a)

/-- From R72: of an idle core, a write to a read-only location, an access to a reserved offset, a byte access inside a 32-bit
register and a 32-bit access anywhere else set `ILLEGAL`; a write changes nothing else, a read gets an unspecified value. The
model's own: a byte access at the own offset of a 32-bit register (0x0008, 0x000C, 0x0010, 0x0014) counts as inside it (log
entry 11), and an unspecified value is a free value (log entry 4). -/
def Obligations.ForbiddenAccessOnlySetsIllegal : Prop :=
  ∀ (s : State) (off : Word), s.flags.busy = false →
    (ReadOnlyOffset off.toNat ∨ ¬ByteOffset s.config.dbufBytes off.toNat → ∀ v,
      s.access (.write8 off v) = .next { s with flags := { s.flags with illegal := true } }) ∧
    (¬ByteOffset s.config.dbufBytes off.toNat → s.access (.read8 off) = .next { s with
      flags := { s.flags with illegal := true },
      replies := .byte (Config.freeByte s.freeCount) :: s.replies, freeCount := s.freeCount + 1 }) ∧
    (¬WordOffset off.toNat →
      (∀ w, s.access (.write32 off w) = .next { s with flags := { s.flags with illegal := true } }) ∧
      s.access (.read32 off) = .next { s with
        flags := { s.flags with illegal := true },
        replies := .word (Config.freeWord s.freeCount) :: s.replies, freeCount := s.freeCount + 1 })

/-- From R74 and R28: a host read returns the value of the last host write to that location, and a byte write to one location
leaves what every other location reads as. -/
def Obligations.HostReadReturnsTheLastWrite : Prop :=
  (∀ (s : State) (off : Word) (v : Byte), s.flags.busy = false →
    ByteOffset s.config.dbufBytes off.toNat → ¬ReadOnlyOffset off.toNat → off ≠ 0x0000 →
    ∃ t, s.access (.write8 off v) = .next t ∧ t.access (.read8 off) = .next (t.reply (.byte v)) ∧
      ∀ (off' : Word) (b : Byte), off' ≠ off → s.access (.read8 off') = .next (s.reply (.byte b)) →
        t.access (.read8 off') = .next (t.reply (.byte b))) ∧
  (∀ (s : State) (off w : Word), s.flags.busy = false → WordOffset off.toNat →
    ∃ t, s.access (.write32 off w) = .next t ∧ t.access (.read32 off) = .next (t.reply (.word w)))

/-- From R77: while the core is busy a read of `FLAGS` is answered, and every other access sets `ILLEGAL` and reaches nothing;
whatever the host does in the busy window, the running command completes with the result its rule gives from the state at
issue: what differs is `ILLEGAL`, set exactly when the host did more than read `FLAGS`, and what the host's reads got. The
model's own: an unspecified value is a free value (log entry 4), and the window is the host's moves on the agenda before the
core's turn (log entry 6). -/
def Obligations.BusyWindowDoesNotDisturbTheCommand : Prop :=
  (∀ s : State, s.flags.busy = true →
    s.access (.read8 0x0001) = .next (s.reply (.byte s.flags.toByte)) ∧
    (∀ off, off ≠ 0x0001 → s.access (.read8 off) = .next { s with
      flags := { s.flags with illegal := true },
      replies := .byte (Config.freeByte s.freeCount) :: s.replies, freeCount := s.freeCount + 1 }) ∧
    (∀ off, s.access (.read32 off) = .next { s with
      flags := { s.flags with illegal := true },
      replies := .word (Config.freeWord s.freeCount) :: s.replies, freeCount := s.freeCount + 1 }) ∧
    (∀ off v, s.access (.write8 off v) = .next { s with flags := { s.flags with illegal := true } }) ∧
    (∀ off v, s.access (.write32 off v) = .next { s with flags := { s.flags with illegal := true } })) ∧
  (∀ (s t : State) (i : Instr) (accs : List Access) (es : List Event),
    s.flags.busy = true → decodeByte s.cmd = .ok i → exec i { s with agenda := es } = .next t →
    ∃ u, runSteps (accs.length + 1) { s with agenda := accs.map Event.host ++ .core :: es } = .next u ∧
      { u with flags := { u.flags with illegal := t.flags.illegal }, replies := t.replies, freeCount := t.freeCount } = t ∧
      u.flags.illegal = (s.flags.illegal || accs.any fun acc => acc != .read8 0x0001))

/-! ### Status, flags, reset, invariant -/

/-- R26: the numbers of the statuses, bits 7 to 2 zero; only a command's completion or a reset changes `STATUS`, and a
reserved code does not. -/
def Obligations.StatusChangesOnlyAtCompletion : Prop :=
  (∀ s t : State, step s = .next t → t.status ≠ s.status →
    (∃ s' i, s.popEvent = (.core, s') ∧ s'.flags.busy = true ∧ decodeByte s'.cmd = .ok i ∧ exec i s' = .next t) ∨
    (∃ s', s.popEvent = (.reset, s') ∧ t.status = .ok)) ∧
  (∀ (s : State) (c : Byte), (s.issue c).status = s.status) ∧
  Status.ok.code = 0 ∧ Status.invalidDataLength.code = 1 ∧ Status.invalidNonceLength.code = 2 ∧
  Status.invalidKeyLength.code = 3 ∧ ∀ st : Status, st.code &&& 0xFC = 0

/-- From R27 and R242: once set, `ILLEGAL` stays set through every step but a reset, and a reset clears it. -/
def Obligations.OnlyResetClearsIllegal : Prop :=
  ∀ s t : State, step s = .next t →
    ((∀ s', s.popEvent ≠ (.reset, s')) → s.flags.illegal = true → t.flags.illegal = true) ∧
    (∀ s', s.popEvent = (.reset, s') → t.flags.illegal = false)

/-- R35: the values the spec gives for reset; the value of `CMD` is a reserved code. -/
def Obligations.ResetControlValues : Prop :=
  State.reset.cmd = 0 ∧ State.reset.status.code = 0 ∧ State.reset.flags.toByte = 0 ∧
  State.reset.dataLen = 0 ∧ State.reset.keyLen = 0 ∧ State.reset.nonceLen = 0 ∧ State.reset.pfxLen = 0 ∧
  isCommand State.reset.cmd = false

/-- From R240 and R241: a reset, whatever the core is doing, leaves the control state at its reset values; a command in
progress is abandoned. The model's own: the buffer lists nothing (log entry 3), and the registers that the spec leaves
unspecified take free values, each of their 58 bytes one of its own (log entry 5). -/
def Obligations.ResetFromAnyState : Prop :=
  ∀ (s : State) (es : List Event), s.agenda = .reset :: es →
    ∃ t, step s = .next t ∧ t.cmd = 0 ∧ t.status = .ok ∧ t.flags.toByte = 0 ∧ t.flags.busy = false ∧
      t.dataLen = 0 ∧ t.keyLen = 0 ∧ t.nonceLen = 0 ∧ t.pfxLen = 0 ∧
      t.a = Config.freeByte s.freeCount ∧ t.b = Config.freeByte (s.freeCount + 1) ∧
      t.t = Config.freeByte (s.freeCount + 2) ∧ t.r = Config.freeByte (s.freeCount + 3) ∧
      (∀ (j : Nat) (hj : j < 12),
        t.x[j] = Config.freeByte (s.freeCount + 4 + j) ∧ t.y[j] = Config.freeByte (s.freeCount + 16 + j) ∧
        t.key[j] = Config.freeByte (s.freeCount + 28 + j) ∧ t.pfx[j] = Config.freeByte (s.freeCount + 40 + j)) ∧
      (∀ (j : Nat) (hj : j < 6), t.nonce[j] = Config.freeByte (s.freeCount + 52 + j)) ∧
      t.freeCount = s.freeCount + 58 ∧
      (∀ a, t.dbuf.read a = none) ∧ t.config = s.config ∧ t.agenda = es ∧ t.replies = s.replies

/-- From R16 and R8: no step changes the parameters, which the model carries in its state (log entry 2). -/
def Obligations.ParametersNeverChange : Prop :=
  ∀ s t : State, step s = .next t → t.config = s.config

/-- The invariant of the next statement holds after reset. -/
def Obligations.InvariantHoldsAtReset : Prop := State.reset.Inv

/-- From R27, R65 and R91, and the model's canonical form: every step keeps the invariant: `BUSY` and `DONE` never both 1, a
busy core with a command in `CMD`, the buffer's list canonical and inside the buffer. -/
def Obligations.StepKeepsTheInvariant : Prop :=
  ∀ s t : State, s.Inv → step s = .next t → t.Inv

/-! ### Worked examples -/

/-- The worked examples of the command rules, reference parameters, each marked by the spec "[derived: ...]": R112, R115,
R122, R124, R132, R134, R141, R148, R158, R169, R182, R191, R201. -/
def Obligations.WorkedExamples : Prop :=
  gfProduct 0x57 0x83 = 0x2B79 ∧ gfMul 0x57 0x83 = 0xC1 ∧ gfInv 0x03 = 0xF6 ∧
  affine .reference 0x01 = 0x7C ∧ affine .reference 0x00 = 0x63 ∧
  gfInv 0x53 = 0xCA ∧ affine .reference 0xCA = 0xED ∧ sbox .reference 0x53 = 0xED ∧ sbox .reference 0x00 = 0x63 ∧
  theta countingBlock = #v[0x06, 0x07, 0x04, 0x07, 0x00, 0x01, 0x14, 0x15, 0x1A, 0x19, 0x1A, 0x1B] ∧
  thetaInv countingBlock = #v[0x02, 0x03, 0x00, 0xF6, 0xF1, 0xF0, 0x08, 0x09, 0x06, 0xF0, 0xF3, 0xF2] ∧
  perm countingBlock = #v[0x00, 0x0A, 0x08, 0x03, 0x01, 0x0B, 0x06, 0x04, 0x02, 0x09, 0x07, 0x05] ∧
  ksNext .reference countingBlock 1 =
    #v[0x61, 0x7E, 0x75, 0x62, 0x7A, 0x70, 0x64, 0x7D, 0x78, 0x6D, 0x77, 0x73] ∧
  encBlock .reference (Block.const 0) (Block.const 0) =
    #v[0x1D, 0x14, 0x51, 0x34, 0x85, 0x99, 0x99, 0xAA, 0x60, 0xAD, 0xDE, 0x6F] ∧
  ctrApply .reference [Block.const 0] (Block.const 0) (Nonce.ofFn fun _ => 0) =
    [#v[0x1D, 0x14, 0x51, 0x34, 0x85, 0x99, 0x99, 0xAA, 0x60, 0xAD, 0xDE, 0x6F]] ∧
  dmHash .reference [Block.const 0] =
    #v[0x1D, 0x14, 0x51, 0x34, 0x85, 0x99, 0x99, 0xAA, 0x60, 0xAD, 0xDE, 0x6F] ∧
  hmacTag .reference [Block.const 0] (Block.const 0) none =
    #v[0xB9, 0xC4, 0xE5, 0x6C, 0x06, 0xCD, 0x3F, 0x3C, 0x5B, 0x7E, 0x78, 0xAC] ∧
  (aeSeal .reference [Block.const 0] (Block.const 0) (Nonce.ofFn fun _ => 0)).2 =
    #v[0xA6, 0xB7, 0x5D, 0x2E, 0x61, 0xBF, 0x9B, 0x9C, 0xED, 0xD1, 0x41, 0xC3]
end

