-- ==== Sys2Proof/Laws/Bits.lean ====
section
/-! SUPPORT. The small lemmas of bytes, bits and blocks. -/

namespace Sys2Proof

@[simp] theorem byteOfBits_getLsbD (f : Fin 8 → Bool) (i : Fin 8) : (byteOfBits f).getLsbD i = f i := by
  fin_cases i <;> simp [byteOfBits, BitVec.getElem_cons]

@[simp] theorem Block.ofFn_get (f : Fin 12 → Byte) (i : Fin 12) : (Block.ofFn f)[i] = f i := by
  fin_cases i <;> rfl

@[simp] theorem Block.ofFn_getElem (f : Fin 12 → Byte) (i : Nat) (h : i < 12) : (Block.ofFn f)[i] = f ⟨i, h⟩ :=
  Block.ofFn_get f ⟨i, h⟩

@[simp] theorem Nonce.ofFn_get (f : Fin 6 → Byte) (i : Fin 6) : (Nonce.ofFn f)[i] = f i := by
  fin_cases i <;> rfl

@[simp] theorem Nonce.ofFn_getElem (f : Fin 6 → Byte) (i : Nat) (h : i < 6) : (Nonce.ofFn f)[i] = f ⟨i, h⟩ :=
  Nonce.ofFn_get f ⟨i, h⟩

theorem Block.ext_get {x z : Block} (h : ∀ i : Fin 12, x[i] = z[i]) : x = z :=
  Vector.ext fun i hi => h ⟨i, hi⟩

@[simp] theorem Block.const_getElem (c : Byte) (i : Nat) (h : i < 12) : (Block.const c)[i] = c := by
  simp [Block.const]

@[simp] theorem Block.xor_getElem (a b : Block) (i : Nat) (h : i < 12) : (a.xor b)[i] = a[i] ^^^ b[i] := by
  simp [Block.xor]

theorem Block.xor_comm (a b : Block) : a.xor b = b.xor a :=
  Vector.ext fun i hi => by simp [BitVec.xor_comm]

theorem Block.xor_assoc (a b c : Block) : (a.xor b).xor c = a.xor (b.xor c) :=
  Vector.ext fun i hi => by simp [BitVec.xor_assoc]

@[simp] theorem Block.xor_zero (a : Block) : a.xor (Block.const 0) = a :=
  Vector.ext fun i hi => by simp

@[simp] theorem Block.xor_cancel (a b : Block) : (a.xor b).xor b = a :=
  Vector.ext fun i hi => by simp

theorem Block.xor_right_injective (b : Block) : Function.Injective fun a : Block => a.xor b :=
  fun x z h => by simpa using congrArg (fun w : Block => w.xor b) h

/-- Two XORs of two bits, regrouped. -/
theorem bool_xor_regroup (p q a b : Bool) : ((p ^^ q) ^^ (a ^^ b)) = ((p ^^ a) ^^ (q ^^ b)) := by
  cases p <;> cases q <;> cases a <;> cases b <;> rfl

/-- Parity is additive over GF(2). -/
theorem parity_xor (v w : Byte) : parity (v ^^^ w) = (parity v ^^ parity w) := by
  simp only [parity, BitVec.getLsbD_xor]
  rw [bool_xor_regroup _ _ (v.getLsbD 1), bool_xor_regroup _ _ (v.getLsbD 2), bool_xor_regroup _ _ (v.getLsbD 3),
    bool_xor_regroup _ _ (v.getLsbD 4), bool_xor_regroup _ _ (v.getLsbD 5), bool_xor_regroup _ _ (v.getLsbD 6),
    bool_xor_regroup _ _ (v.getLsbD 7)]

theorem byte_and_xor (m v w : Byte) : m &&& (v ^^^ w) = (m &&& v) ^^^ (m &&& w) :=
  BitVec.eq_of_getLsbD_eq fun i hi => by simp [Bool.and_xor_distrib_left]

/-- The linear map of a matrix is additive. -/
theorem gf2Linear_xor (rows : Vector Byte 8) (v w : Byte) :
    gf2Linear rows (v ^^^ w) = gf2Linear rows v ^^^ gf2Linear rows w := by
  refine BitVec.eq_of_getLsbD_eq fun i hi => ?_
  have h : ∀ u, (gf2Linear rows u).getLsbD i = parity (rows[(⟨i, hi⟩ : Fin 8)] &&& u) :=
    fun u => byteOfBits_getLsbD _ ⟨i, hi⟩
  rw [BitVec.getLsbD_xor, h, h, h, byte_and_xor, parity_xor]

end Sys2Proof
end

