-- ==== Sys2Proof/Laws/Memory.lean ====
section
/-! SUPPORT. The laws of the data buffer: read after write, the canonical form, written bytes, blocks. -/

namespace Sys2Proof.Machine

@[simp] theorem Memory.wf_nil : Memory.wf [] := List.Pairwise.nil

@[simp] theorem Memory.read_nil (a : Nat) : Memory.read [] a = none := rfl

theorem Memory.read_write_same (m : Memory) (a : Nat) (v : Byte) : (m.write a v).read a = some v := by
  induction m with
  | nil => simp [Memory.write, Memory.read]
  | cons cell m ih =>
    obtain ⟨k, w⟩ := cell
    simp only [Memory.write]
    split_ifs with h1 h2
    · simp [Memory.read]
    · simp [Memory.read]
    · simp [Memory.read, Ne.symm h2, ih]

theorem Memory.read_write_other (m : Memory) {a x : Nat} (v : Byte) (h : x ≠ a) : (m.write a v).read x = m.read x := by
  induction m with
  | nil => simp [Memory.write, Memory.read, Ne.symm h]
  | cons cell m ih =>
    obtain ⟨k, w⟩ := cell
    simp only [Memory.write]
    split_ifs with h1 h2
    · simp [Memory.read, Ne.symm h]
    · subst h2; simp [Memory.read, Ne.symm h]
    · simp [Memory.read, ih]

/-- What a read finds after a write, at every address. -/
theorem Memory.read_write (m : Memory) (a x : Nat) (v : Byte) :
    (m.write a v).read x = if x = a then some v else m.read x := by
  split_ifs with h
  · subst h; exact m.read_write_same x v
  · exact m.read_write_other v h

/-- The addresses listed after a write: those listed before, and the one written. -/
theorem Memory.mem_write {m : Memory} {a : Nat} {v : Byte} {cell : Host.Cell} (h : cell ∈ m.write a v) :
    cell.1 = a ∨ cell ∈ m := by
  induction m with
  | nil => simp [Memory.write] at h; simp [h]
  | cons hd m ih =>
    obtain ⟨k, w⟩ := hd
    simp only [Memory.write] at h
    split_ifs at h with h1 h2
    · simp only [List.mem_cons] at h ⊢
      rcases h with rfl | h
      · exact .inl rfl
      · exact .inr h
    · simp only [List.mem_cons] at h ⊢
      rcases h with rfl | h
      · exact .inl rfl
      · exact .inr (.inr h)
    · simp only [List.mem_cons] at h ⊢
      rcases h with rfl | h
      · exact .inr (.inl rfl)
      · exact (ih h).imp_right .inr

/-- A write keeps the canonical form. -/
theorem Memory.write_wf {m : Memory} (hm : m.wf) (a : Nat) (v : Byte) : (m.write a v).wf := by
  induction m with
  | nil => simp [Memory.write, Memory.wf]
  | cons hd m ih =>
    obtain ⟨k, w⟩ := hd
    simp only [Memory.wf, List.map_cons, List.pairwise_cons, List.mem_map, forall_exists_index, and_imp,
      forall_apply_eq_imp_iff₂] at hm ih ⊢
    simp only [Memory.write]
    split_ifs with h1 h2
    · simp only [List.map_cons, List.pairwise_cons, List.mem_cons, List.mem_map]
      refine ⟨?_, ?_, hm.2⟩
      · rintro x (rfl | ⟨c, hc, rfl⟩)
        · exact h1
        · exact lt_trans h1 (hm.1 c hc)
      · rintro x ⟨c, hc, rfl⟩
        exact hm.1 c hc
    · subst h2
      simp only [List.map_cons, List.pairwise_cons, List.mem_map]
      exact ⟨by rintro x ⟨c, hc, rfl⟩; exact hm.1 c hc, hm.2⟩
    · simp only [List.map_cons, List.pairwise_cons, List.mem_map]
      refine ⟨?_, ih hm.2⟩
      rintro x ⟨c, hc, rfl⟩
      rcases Memory.mem_write hc with h | h
      · omega
      · exact hm.1 c h

/-- A canonical list is determined by its reads: writing back the byte an address holds changes nothing. -/
theorem Memory.write_read_eq {m : Memory} (hm : m.wf) {a : Nat} {v : Byte} (h : m.read a = some v) : m.write a v = m := by
  induction m with
  | nil => simp [Memory.read] at h
  | cons hd m ih =>
    obtain ⟨k, w⟩ := hd
    simp only [Memory.wf, List.map_cons, List.pairwise_cons, List.mem_map, forall_exists_index, and_imp,
      forall_apply_eq_imp_iff₂] at hm ih
    simp only [Memory.read] at h
    simp only [Memory.write]
    split_ifs at h with hk
    · subst hk
      obtain rfl : w = v := by simpa using h
      simp
    · have hmem : ∃ c ∈ m, c.1 = a := by
        clear ih hm hk
        induction m with
        | nil => simp [Memory.read] at h
        | cons c m ih =>
          simp only [Memory.read] at h
          split_ifs at h with hc
          · exact ⟨c, by simp, hc⟩
          · obtain ⟨d, hd, hda⟩ := ih h
            exact ⟨d, by simp [hd], hda⟩
      obtain ⟨c, hc, rfl⟩ := hmem
      have := hm.1 c hc
      rw [if_neg (by omega), if_neg (by omega), ih hm.2 h]

theorem Memory.writeBytes_wf {m : Memory} (hm : m.wf) (a : Nat) (vs : List Byte) : (m.writeBytes a vs).wf := by
  induction vs generalizing m a with
  | nil => exact hm
  | cons v vs ih => exact ih (Memory.write_wf hm a v) (a + 1)

/-- The addresses listed after writing a byte sequence: those listed before, and those written. -/
theorem Memory.mem_writeBytes {m : Memory} {a : Nat} {vs : List Byte} {cell : Host.Cell}
    (h : cell ∈ m.writeBytes a vs) : (a ≤ cell.1 ∧ cell.1 < a + vs.length) ∨ cell ∈ m := by
  induction vs generalizing m a with
  | nil => exact .inr h
  | cons v vs ih =>
    rcases ih h with ⟨h1, h2⟩ | h
    · exact .inl ⟨by omega, by simp; omega⟩
    · rcases Memory.mem_write h with h | h
      · exact .inl ⟨by omega, by simp; omega⟩
      · exact .inr h

theorem Memory.read_writeBytes_outside (m : Memory) {a x : Nat} (vs : List Byte) (h : x < a ∨ a + vs.length ≤ x) :
    (m.writeBytes a vs).read x = m.read x := by
  induction vs generalizing m a with
  | nil => rfl
  | cons v vs ih =>
    simp only [List.length_cons] at h
    rw [Memory.writeBytes, ih _ (by omega), m.read_write_other v (by omega)]

theorem Memory.read_writeBytes_inside (m : Memory) (a k : Nat) (vs : List Byte) (h : k < vs.length) :
    (m.writeBytes a vs).read (a + k) = some vs[k] := by
  induction vs generalizing m a k with
  | nil => simp at h
  | cons v vs ih =>
    rw [Memory.writeBytes]
    cases k with
    | zero => rw [Memory.read_writeBytes_outside _ vs (by omega)]; simpa using m.read_write_same a v
    | succ k =>
      have := ih (m.write a v) (a + 1) k (by simpa using h)
      rw [show a + (k + 1) = a + 1 + k by omega, this]
      simp

/-- Every byte of the range was written. -/
theorem Memory.firstUnwritten_none {m : Memory} {a n : Nat} :
    m.firstUnwritten a n = none ↔ ∀ k < n, (m.read (a + k)).isSome = true := by
  induction n generalizing a with
  | zero => simp [Memory.firstUnwritten]
  | succ n ih =>
    simp only [Memory.firstUnwritten]
    cases h : m.read a with
    | none =>
      simp only [reduceCtorEq, false_iff, not_forall]
      exact ⟨0, by omega, by simp [h]⟩
    | some v =>
      simp only [ih]
      constructor
      · intro hk k hkn
        cases k with
        | zero => simp [h]
        | succ k => rw [show a + (k + 1) = a + 1 + k by omega]; exact hk k (by omega)
      · intro hk k hkn
        rw [show a + 1 + k = a + (k + 1) by omega]
        exact hk (k + 1) (by omega)

/-- The address a fault names is in the range, was never written, and is the first such. -/
theorem Memory.firstUnwritten_some {m : Memory} {a n x : Nat} (h : m.firstUnwritten a n = some x) :
    a ≤ x ∧ x < a + n ∧ m.read x = none ∧ ∀ z, a ≤ z → z < x → (m.read z).isSome = true := by
  induction n generalizing a with
  | zero => simp [Memory.firstUnwritten] at h
  | succ n ih =>
    simp only [Memory.firstUnwritten] at h
    cases hr : m.read a with
    | none =>
      obtain rfl : a = x := by simpa [hr] using h
      exact ⟨le_refl a, by omega, hr, fun z h1 h2 => absurd h1 (by omega)⟩
    | some v =>
      rw [hr] at h
      obtain ⟨h1, h2, h3, h4⟩ := ih h
      refine ⟨by omega, by omega, h3, fun z hz1 hz2 => ?_⟩
      by_cases hz : z = a
      · simp [hz, hr]
      · exact h4 z (by omega) hz2

@[simp] theorem Memory.readBlock_getElem (m : Memory) (a j : Nat) (h : j < 12) :
    (m.readBlock a)[j] = (m.read (a + j)).getD 0 := by
  simp [Memory.readBlock]

@[simp] theorem Memory.readBlocks_length (m : Memory) (a n : Nat) : (m.readBlocks a n).length = n := by
  induction n generalizing a with
  | zero => rfl
  | succ n ih => simp [Memory.readBlocks, ih]

theorem Memory.readBlocks_getElem (m : Memory) (a n i : Nat) (h : i < (m.readBlocks a n).length) :
    (m.readBlocks a n)[i] = m.readBlock (a + 12 * i) := by
  induction n generalizing a i with
  | zero => simp [Memory.readBlocks] at h
  | succ n ih =>
    cases i with
    | zero => simp [Memory.readBlocks]
    | succ i =>
      simp only [Memory.readBlocks, List.getElem_cons_succ]
      rw [ih]
      congr 1; omega

@[simp] theorem blockBytes_length (bs : List Block) : (blockBytes bs).length = 12 * bs.length := by
  induction bs with
  | nil => rfl
  | cons b bs ih => simp only [blockBytes, List.flatMap_cons, List.length_append, List.length_cons] at ih ⊢; rw [ih]; simp; omega

theorem blockBytes_getElem (bs : List Block) (i j : Nat) (hi : i < bs.length) (hj : j < 12)
    (h : 12 * i + j < (blockBytes bs).length) : (blockBytes bs)[12 * i + j] = bs[i][j] := by
  induction bs generalizing i with
  | nil => simp at hi
  | cons b bs ih =>
    simp only [blockBytes, List.flatMap_cons] at ih ⊢
    cases i with
    | zero => rw [List.getElem_append_left (by simp; omega)]; simp
    | succ i =>
      rw [List.getElem_append_right (by simp; omega)]
      simp only [List.getElem_cons_succ]
      rw [← ih i (by simpa using hi) (by have := blockBytes_length bs; simp only [blockBytes] at this; simp at hi; omega)]
      congr 1
      simp; omega

/-- Two reads that agree on a range give the same blocks of it. -/
theorem Memory.readBlocks_congr {m m' : Memory} {a n : Nat} (h : ∀ k < 12 * n, m.read (a + k) = m'.read (a + k)) :
    m.readBlocks a n = m'.readBlocks a n := by
  refine List.ext_getElem (by simp) fun i h1 h2 => ?_
  rw [Memory.readBlocks_getElem, Memory.readBlocks_getElem]
  simp only [Memory.readBlocks_length] at h1
  refine Vector.ext fun j hj => ?_
  have := h (12 * i + j) (by omega)
  simp only [Memory.readBlock_getElem, ← this, Nat.add_assoc]

theorem Memory.firstUnwritten_congr {m m' : Memory} {a n : Nat} (h : ∀ k < n, m.read (a + k) = m'.read (a + k)) :
    m.firstUnwritten a n = m'.firstUnwritten a n := by
  induction n generalizing a with
  | zero => rfl
  | succ n ih =>
    have h0 := h 0 (by omega)
    simp only [Nat.add_zero] at h0
    simp only [Memory.firstUnwritten, h0]
    split
    · rfl
    · refine ih fun k hk => ?_
      have := h (k + 1) (by omega)
      rwa [show a + (k + 1) = a + 1 + k by omega] at this

/-- Blocks written from an address are what the blocks there read as. -/
theorem Memory.readBlocks_writeBytes (m : Memory) (a : Nat) (bs : List Block) :
    (m.writeBytes a (blockBytes bs)).readBlocks a bs.length = bs := by
  refine List.ext_getElem (by simp) fun i h1 h2 => ?_
  rw [Memory.readBlocks_getElem]
  refine Vector.ext fun j hj => ?_
  have hlt : 12 * i + j < (blockBytes bs).length := by simp; omega
  rw [Memory.readBlock_getElem, Nat.add_assoc, Memory.read_writeBytes_inside _ _ _ _ hlt,
    blockBytes_getElem bs i j h2 hj hlt]
  rfl

/-- An address below every listed one reads as nothing. -/
theorem Memory.read_below {m : Memory} {x : Nat} (h : ∀ cell ∈ m, x < cell.1) : m.read x = none := by
  induction m with
  | nil => rfl
  | cons cell m ih =>
    obtain ⟨k, v⟩ := cell
    have hk : x < k := h (k, v) List.mem_cons_self
    simp only [Memory.read]
    rw [if_neg (by omega)]
    exact ih fun c hc => h c (List.mem_cons_of_mem _ hc)

/-- Two memories in canonical form that read alike are equal data. -/
theorem Memory.ext_read {m m' : Memory} (h : m.wf) (h' : m'.wf) (he : ∀ a, m.read a = m'.read a) : m = m' := by
  induction m generalizing m' with
  | nil =>
    cases m' with
    | nil => rfl
    | cons q m' => simpa [Memory.read] using he q.1
  | cons p m ih =>
    cases m' with
    | nil => simpa [Memory.read] using he p.1
    | cons q m' =>
      obtain ⟨a, v⟩ := p
      obtain ⟨b, w⟩ := q
      simp only [Memory.wf, List.map_cons, List.pairwise_cons] at h h'
      have hm : ∀ cell ∈ m, a < cell.1 := fun cell hc => h.1 _ (List.mem_map_of_mem hc)
      have hm' : ∀ cell ∈ m', b < cell.1 := fun cell hc => h'.1 _ (List.mem_map_of_mem hc)
      have hab : a = b := by
        rcases Nat.lt_trichotomy a b with hlt | heq | hlt
        · have hr := he a
          simp only [Memory.read, if_true] at hr
          rw [if_neg (by omega), Memory.read_below fun cell hc => Nat.lt_trans hlt (hm' cell hc)] at hr
          cases hr
        · exact heq
        · have hr := he b
          simp only [Memory.read, if_true] at hr
          rw [if_neg (by omega), Memory.read_below fun cell hc => Nat.lt_trans hlt (hm cell hc)] at hr
          cases hr
      subst hab
      have hv : v = w := by simpa [Memory.read] using he a
      subst hv
      congr 1
      refine ih h.2 h'.2 fun x => ?_
      by_cases hx : a = x
      · subst hx
        rw [Memory.read_below hm, Memory.read_below hm']
      · simpa [Memory.read, hx] using he x

end Sys2Proof.Machine
end

