-- ==== Sys2Proof/Laws/State.lean ====
section
/-! SUPPORT. One lemma per field per update: what each named update of the state leaves in each field. -/

namespace Sys2Proof.Machine

/-! ### `setR` -/

@[simp] theorem State.setR_a (s : State) (v : Byte) : (s.setR v).a = s.a := rfl
@[simp] theorem State.setR_b (s : State) (v : Byte) : (s.setR v).b = s.b := rfl
@[simp] theorem State.setR_t (s : State) (v : Byte) : (s.setR v).t = s.t := rfl
@[simp] theorem State.setR_r (s : State) (v : Byte) : (s.setR v).r = v := rfl
@[simp] theorem State.setR_x (s : State) (v : Byte) : (s.setR v).x = s.x := rfl
@[simp] theorem State.setR_y (s : State) (v : Byte) : (s.setR v).y = s.y := rfl
@[simp] theorem State.setR_key (s : State) (v : Byte) : (s.setR v).key = s.key := rfl
@[simp] theorem State.setR_nonce (s : State) (v : Byte) : (s.setR v).nonce = s.nonce := rfl
@[simp] theorem State.setR_pfx (s : State) (v : Byte) : (s.setR v).pfx = s.pfx := rfl
@[simp] theorem State.setR_dataLen (s : State) (v : Byte) : (s.setR v).dataLen = s.dataLen := rfl
@[simp] theorem State.setR_keyLen (s : State) (v : Byte) : (s.setR v).keyLen = s.keyLen := rfl
@[simp] theorem State.setR_nonceLen (s : State) (v : Byte) : (s.setR v).nonceLen = s.nonceLen := rfl
@[simp] theorem State.setR_pfxLen (s : State) (v : Byte) : (s.setR v).pfxLen = s.pfxLen := rfl
@[simp] theorem State.setR_cmd (s : State) (v : Byte) : (s.setR v).cmd = s.cmd := rfl
@[simp] theorem State.setR_status (s : State) (v : Byte) : (s.setR v).status = s.status := rfl
@[simp] theorem State.setR_flags (s : State) (v : Byte) : (s.setR v).flags = s.flags := rfl
@[simp] theorem State.setR_dbuf (s : State) (v : Byte) : (s.setR v).dbuf = s.dbuf := rfl
@[simp] theorem State.setR_config (s : State) (v : Byte) : (s.setR v).config = s.config := rfl
@[simp] theorem State.setR_agenda (s : State) (v : Byte) : (s.setR v).agenda = s.agenda := rfl
@[simp] theorem State.setR_replies (s : State) (v : Byte) : (s.setR v).replies = s.replies := rfl
@[simp] theorem State.setR_freeCount (s : State) (v : Byte) : (s.setR v).freeCount = s.freeCount := rfl

/-! ### `setY` -/

@[simp] theorem State.setY_a (s : State) (v : Block) : (s.setY v).a = s.a := rfl
@[simp] theorem State.setY_b (s : State) (v : Block) : (s.setY v).b = s.b := rfl
@[simp] theorem State.setY_t (s : State) (v : Block) : (s.setY v).t = s.t := rfl
@[simp] theorem State.setY_r (s : State) (v : Block) : (s.setY v).r = s.r := rfl
@[simp] theorem State.setY_x (s : State) (v : Block) : (s.setY v).x = s.x := rfl
@[simp] theorem State.setY_y (s : State) (v : Block) : (s.setY v).y = v := rfl
@[simp] theorem State.setY_key (s : State) (v : Block) : (s.setY v).key = s.key := rfl
@[simp] theorem State.setY_nonce (s : State) (v : Block) : (s.setY v).nonce = s.nonce := rfl
@[simp] theorem State.setY_pfx (s : State) (v : Block) : (s.setY v).pfx = s.pfx := rfl
@[simp] theorem State.setY_dataLen (s : State) (v : Block) : (s.setY v).dataLen = s.dataLen := rfl
@[simp] theorem State.setY_keyLen (s : State) (v : Block) : (s.setY v).keyLen = s.keyLen := rfl
@[simp] theorem State.setY_nonceLen (s : State) (v : Block) : (s.setY v).nonceLen = s.nonceLen := rfl
@[simp] theorem State.setY_pfxLen (s : State) (v : Block) : (s.setY v).pfxLen = s.pfxLen := rfl
@[simp] theorem State.setY_cmd (s : State) (v : Block) : (s.setY v).cmd = s.cmd := rfl
@[simp] theorem State.setY_status (s : State) (v : Block) : (s.setY v).status = s.status := rfl
@[simp] theorem State.setY_flags (s : State) (v : Block) : (s.setY v).flags = s.flags := rfl
@[simp] theorem State.setY_dbuf (s : State) (v : Block) : (s.setY v).dbuf = s.dbuf := rfl
@[simp] theorem State.setY_config (s : State) (v : Block) : (s.setY v).config = s.config := rfl
@[simp] theorem State.setY_agenda (s : State) (v : Block) : (s.setY v).agenda = s.agenda := rfl
@[simp] theorem State.setY_replies (s : State) (v : Block) : (s.setY v).replies = s.replies := rfl
@[simp] theorem State.setY_freeCount (s : State) (v : Block) : (s.setY v).freeCount = s.freeCount := rfl

/-! ### `setData` -/

@[simp] theorem State.setData_a (s : State) (bs : List Block) : (s.setData bs).a = s.a := rfl
@[simp] theorem State.setData_b (s : State) (bs : List Block) : (s.setData bs).b = s.b := rfl
@[simp] theorem State.setData_t (s : State) (bs : List Block) : (s.setData bs).t = s.t := rfl
@[simp] theorem State.setData_r (s : State) (bs : List Block) : (s.setData bs).r = s.r := rfl
@[simp] theorem State.setData_x (s : State) (bs : List Block) : (s.setData bs).x = s.x := rfl
@[simp] theorem State.setData_y (s : State) (bs : List Block) : (s.setData bs).y = s.y := rfl
@[simp] theorem State.setData_key (s : State) (bs : List Block) : (s.setData bs).key = s.key := rfl
@[simp] theorem State.setData_nonce (s : State) (bs : List Block) : (s.setData bs).nonce = s.nonce := rfl
@[simp] theorem State.setData_pfx (s : State) (bs : List Block) : (s.setData bs).pfx = s.pfx := rfl
@[simp] theorem State.setData_dataLen (s : State) (bs : List Block) : (s.setData bs).dataLen = s.dataLen := rfl
@[simp] theorem State.setData_keyLen (s : State) (bs : List Block) : (s.setData bs).keyLen = s.keyLen := rfl
@[simp] theorem State.setData_nonceLen (s : State) (bs : List Block) : (s.setData bs).nonceLen = s.nonceLen := rfl
@[simp] theorem State.setData_pfxLen (s : State) (bs : List Block) : (s.setData bs).pfxLen = s.pfxLen := rfl
@[simp] theorem State.setData_cmd (s : State) (bs : List Block) : (s.setData bs).cmd = s.cmd := rfl
@[simp] theorem State.setData_status (s : State) (bs : List Block) : (s.setData bs).status = s.status := rfl
@[simp] theorem State.setData_flags (s : State) (bs : List Block) : (s.setData bs).flags = s.flags := rfl
@[simp] theorem State.setData_dbuf (s : State) (bs : List Block) : (s.setData bs).dbuf = s.dbuf.writeBytes 0 (blockBytes bs) := rfl
@[simp] theorem State.setData_config (s : State) (bs : List Block) : (s.setData bs).config = s.config := rfl
@[simp] theorem State.setData_agenda (s : State) (bs : List Block) : (s.setData bs).agenda = s.agenda := rfl
@[simp] theorem State.setData_replies (s : State) (bs : List Block) : (s.setData bs).replies = s.replies := rfl
@[simp] theorem State.setData_freeCount (s : State) (bs : List Block) : (s.setData bs).freeCount = s.freeCount := rfl

/-! ### `finish` -/

@[simp] theorem State.finish_a (s : State) (st : Status) : (s.finish st).a = s.a := rfl
@[simp] theorem State.finish_b (s : State) (st : Status) : (s.finish st).b = s.b := rfl
@[simp] theorem State.finish_t (s : State) (st : Status) : (s.finish st).t = s.t := rfl
@[simp] theorem State.finish_r (s : State) (st : Status) : (s.finish st).r = s.r := rfl
@[simp] theorem State.finish_x (s : State) (st : Status) : (s.finish st).x = s.x := rfl
@[simp] theorem State.finish_y (s : State) (st : Status) : (s.finish st).y = s.y := rfl
@[simp] theorem State.finish_key (s : State) (st : Status) : (s.finish st).key = s.key := rfl
@[simp] theorem State.finish_nonce (s : State) (st : Status) : (s.finish st).nonce = s.nonce := rfl
@[simp] theorem State.finish_pfx (s : State) (st : Status) : (s.finish st).pfx = s.pfx := rfl
@[simp] theorem State.finish_dataLen (s : State) (st : Status) : (s.finish st).dataLen = s.dataLen := rfl
@[simp] theorem State.finish_keyLen (s : State) (st : Status) : (s.finish st).keyLen = s.keyLen := rfl
@[simp] theorem State.finish_nonceLen (s : State) (st : Status) : (s.finish st).nonceLen = s.nonceLen := rfl
@[simp] theorem State.finish_pfxLen (s : State) (st : Status) : (s.finish st).pfxLen = s.pfxLen := rfl
@[simp] theorem State.finish_cmd (s : State) (st : Status) : (s.finish st).cmd = s.cmd := rfl
@[simp] theorem State.finish_status (s : State) (st : Status) : (s.finish st).status = st := rfl
@[simp] theorem State.finish_flags (s : State) (st : Status) : (s.finish st).flags = s.flags.completed := rfl
@[simp] theorem State.finish_dbuf (s : State) (st : Status) : (s.finish st).dbuf = s.dbuf := rfl
@[simp] theorem State.finish_config (s : State) (st : Status) : (s.finish st).config = s.config := rfl
@[simp] theorem State.finish_agenda (s : State) (st : Status) : (s.finish st).agenda = s.agenda := rfl
@[simp] theorem State.finish_replies (s : State) (st : Status) : (s.finish st).replies = s.replies := rfl
@[simp] theorem State.finish_freeCount (s : State) (st : Status) : (s.finish st).freeCount = s.freeCount := rfl

/-! ### `markIllegal` -/

@[simp] theorem State.markIllegal_a (s : State) : s.markIllegal.a = s.a := rfl
@[simp] theorem State.markIllegal_b (s : State) : s.markIllegal.b = s.b := rfl
@[simp] theorem State.markIllegal_t (s : State) : s.markIllegal.t = s.t := rfl
@[simp] theorem State.markIllegal_r (s : State) : s.markIllegal.r = s.r := rfl
@[simp] theorem State.markIllegal_x (s : State) : s.markIllegal.x = s.x := rfl
@[simp] theorem State.markIllegal_y (s : State) : s.markIllegal.y = s.y := rfl
@[simp] theorem State.markIllegal_key (s : State) : s.markIllegal.key = s.key := rfl
@[simp] theorem State.markIllegal_nonce (s : State) : s.markIllegal.nonce = s.nonce := rfl
@[simp] theorem State.markIllegal_pfx (s : State) : s.markIllegal.pfx = s.pfx := rfl
@[simp] theorem State.markIllegal_dataLen (s : State) : s.markIllegal.dataLen = s.dataLen := rfl
@[simp] theorem State.markIllegal_keyLen (s : State) : s.markIllegal.keyLen = s.keyLen := rfl
@[simp] theorem State.markIllegal_nonceLen (s : State) : s.markIllegal.nonceLen = s.nonceLen := rfl
@[simp] theorem State.markIllegal_pfxLen (s : State) : s.markIllegal.pfxLen = s.pfxLen := rfl
@[simp] theorem State.markIllegal_cmd (s : State) : s.markIllegal.cmd = s.cmd := rfl
@[simp] theorem State.markIllegal_status (s : State) : s.markIllegal.status = s.status := rfl
@[simp] theorem State.markIllegal_flags (s : State) : s.markIllegal.flags = s.flags.marked := rfl
@[simp] theorem State.markIllegal_dbuf (s : State) : s.markIllegal.dbuf = s.dbuf := rfl
@[simp] theorem State.markIllegal_config (s : State) : s.markIllegal.config = s.config := rfl
@[simp] theorem State.markIllegal_agenda (s : State) : s.markIllegal.agenda = s.agenda := rfl
@[simp] theorem State.markIllegal_replies (s : State) : s.markIllegal.replies = s.replies := rfl
@[simp] theorem State.markIllegal_freeCount (s : State) : s.markIllegal.freeCount = s.freeCount := rfl

/-! ### `reply` -/

@[simp] theorem State.reply_a (s : State) (v : Reply) : (s.reply v).a = s.a := rfl
@[simp] theorem State.reply_b (s : State) (v : Reply) : (s.reply v).b = s.b := rfl
@[simp] theorem State.reply_t (s : State) (v : Reply) : (s.reply v).t = s.t := rfl
@[simp] theorem State.reply_r (s : State) (v : Reply) : (s.reply v).r = s.r := rfl
@[simp] theorem State.reply_x (s : State) (v : Reply) : (s.reply v).x = s.x := rfl
@[simp] theorem State.reply_y (s : State) (v : Reply) : (s.reply v).y = s.y := rfl
@[simp] theorem State.reply_key (s : State) (v : Reply) : (s.reply v).key = s.key := rfl
@[simp] theorem State.reply_nonce (s : State) (v : Reply) : (s.reply v).nonce = s.nonce := rfl
@[simp] theorem State.reply_pfx (s : State) (v : Reply) : (s.reply v).pfx = s.pfx := rfl
@[simp] theorem State.reply_dataLen (s : State) (v : Reply) : (s.reply v).dataLen = s.dataLen := rfl
@[simp] theorem State.reply_keyLen (s : State) (v : Reply) : (s.reply v).keyLen = s.keyLen := rfl
@[simp] theorem State.reply_nonceLen (s : State) (v : Reply) : (s.reply v).nonceLen = s.nonceLen := rfl
@[simp] theorem State.reply_pfxLen (s : State) (v : Reply) : (s.reply v).pfxLen = s.pfxLen := rfl
@[simp] theorem State.reply_cmd (s : State) (v : Reply) : (s.reply v).cmd = s.cmd := rfl
@[simp] theorem State.reply_status (s : State) (v : Reply) : (s.reply v).status = s.status := rfl
@[simp] theorem State.reply_flags (s : State) (v : Reply) : (s.reply v).flags = s.flags := rfl
@[simp] theorem State.reply_dbuf (s : State) (v : Reply) : (s.reply v).dbuf = s.dbuf := rfl
@[simp] theorem State.reply_config (s : State) (v : Reply) : (s.reply v).config = s.config := rfl
@[simp] theorem State.reply_agenda (s : State) (v : Reply) : (s.reply v).agenda = s.agenda := rfl
@[simp] theorem State.reply_replies (s : State) (v : Reply) : (s.reply v).replies = v :: s.replies := rfl
@[simp] theorem State.reply_freeCount (s : State) (v : Reply) : (s.reply v).freeCount = s.freeCount := rfl

/-! ### `draw` -/

@[simp] theorem State.draw_a (s : State) (n : Nat) : (s.draw n).a = s.a := rfl
@[simp] theorem State.draw_b (s : State) (n : Nat) : (s.draw n).b = s.b := rfl
@[simp] theorem State.draw_t (s : State) (n : Nat) : (s.draw n).t = s.t := rfl
@[simp] theorem State.draw_r (s : State) (n : Nat) : (s.draw n).r = s.r := rfl
@[simp] theorem State.draw_x (s : State) (n : Nat) : (s.draw n).x = s.x := rfl
@[simp] theorem State.draw_y (s : State) (n : Nat) : (s.draw n).y = s.y := rfl
@[simp] theorem State.draw_key (s : State) (n : Nat) : (s.draw n).key = s.key := rfl
@[simp] theorem State.draw_nonce (s : State) (n : Nat) : (s.draw n).nonce = s.nonce := rfl
@[simp] theorem State.draw_pfx (s : State) (n : Nat) : (s.draw n).pfx = s.pfx := rfl
@[simp] theorem State.draw_dataLen (s : State) (n : Nat) : (s.draw n).dataLen = s.dataLen := rfl
@[simp] theorem State.draw_keyLen (s : State) (n : Nat) : (s.draw n).keyLen = s.keyLen := rfl
@[simp] theorem State.draw_nonceLen (s : State) (n : Nat) : (s.draw n).nonceLen = s.nonceLen := rfl
@[simp] theorem State.draw_pfxLen (s : State) (n : Nat) : (s.draw n).pfxLen = s.pfxLen := rfl
@[simp] theorem State.draw_cmd (s : State) (n : Nat) : (s.draw n).cmd = s.cmd := rfl
@[simp] theorem State.draw_status (s : State) (n : Nat) : (s.draw n).status = s.status := rfl
@[simp] theorem State.draw_flags (s : State) (n : Nat) : (s.draw n).flags = s.flags := rfl
@[simp] theorem State.draw_dbuf (s : State) (n : Nat) : (s.draw n).dbuf = s.dbuf := rfl
@[simp] theorem State.draw_config (s : State) (n : Nat) : (s.draw n).config = s.config := rfl
@[simp] theorem State.draw_agenda (s : State) (n : Nat) : (s.draw n).agenda = s.agenda := rfl
@[simp] theorem State.draw_replies (s : State) (n : Nat) : (s.draw n).replies = s.replies := rfl
@[simp] theorem State.draw_freeCount (s : State) (n : Nat) : (s.draw n).freeCount = s.freeCount + n := rfl

/-! ### `setAgenda` -/

@[simp] theorem State.setAgenda_a (s : State) (es : List Event) : (s.setAgenda es).a = s.a := rfl
@[simp] theorem State.setAgenda_b (s : State) (es : List Event) : (s.setAgenda es).b = s.b := rfl
@[simp] theorem State.setAgenda_t (s : State) (es : List Event) : (s.setAgenda es).t = s.t := rfl
@[simp] theorem State.setAgenda_r (s : State) (es : List Event) : (s.setAgenda es).r = s.r := rfl
@[simp] theorem State.setAgenda_x (s : State) (es : List Event) : (s.setAgenda es).x = s.x := rfl
@[simp] theorem State.setAgenda_y (s : State) (es : List Event) : (s.setAgenda es).y = s.y := rfl
@[simp] theorem State.setAgenda_key (s : State) (es : List Event) : (s.setAgenda es).key = s.key := rfl
@[simp] theorem State.setAgenda_nonce (s : State) (es : List Event) : (s.setAgenda es).nonce = s.nonce := rfl
@[simp] theorem State.setAgenda_pfx (s : State) (es : List Event) : (s.setAgenda es).pfx = s.pfx := rfl
@[simp] theorem State.setAgenda_dataLen (s : State) (es : List Event) : (s.setAgenda es).dataLen = s.dataLen := rfl
@[simp] theorem State.setAgenda_keyLen (s : State) (es : List Event) : (s.setAgenda es).keyLen = s.keyLen := rfl
@[simp] theorem State.setAgenda_nonceLen (s : State) (es : List Event) : (s.setAgenda es).nonceLen = s.nonceLen := rfl
@[simp] theorem State.setAgenda_pfxLen (s : State) (es : List Event) : (s.setAgenda es).pfxLen = s.pfxLen := rfl
@[simp] theorem State.setAgenda_cmd (s : State) (es : List Event) : (s.setAgenda es).cmd = s.cmd := rfl
@[simp] theorem State.setAgenda_status (s : State) (es : List Event) : (s.setAgenda es).status = s.status := rfl
@[simp] theorem State.setAgenda_flags (s : State) (es : List Event) : (s.setAgenda es).flags = s.flags := rfl
@[simp] theorem State.setAgenda_dbuf (s : State) (es : List Event) : (s.setAgenda es).dbuf = s.dbuf := rfl
@[simp] theorem State.setAgenda_config (s : State) (es : List Event) : (s.setAgenda es).config = s.config := rfl
@[simp] theorem State.setAgenda_agenda (s : State) (es : List Event) : (s.setAgenda es).agenda = es := rfl
@[simp] theorem State.setAgenda_replies (s : State) (es : List Event) : (s.setAgenda es).replies = s.replies := rfl
@[simp] theorem State.setAgenda_freeCount (s : State) (es : List Event) : (s.setAgenda es).freeCount = s.freeCount := rfl

/-! ### `issue` -/

@[simp] theorem State.issue_a (s : State) (c : Byte) : (s.issue c).a = s.a := by
  unfold State.issue; split <;> rfl
@[simp] theorem State.issue_b (s : State) (c : Byte) : (s.issue c).b = s.b := by
  unfold State.issue; split <;> rfl
@[simp] theorem State.issue_t (s : State) (c : Byte) : (s.issue c).t = s.t := by
  unfold State.issue; split <;> rfl
@[simp] theorem State.issue_r (s : State) (c : Byte) : (s.issue c).r = s.r := by
  unfold State.issue; split <;> rfl
@[simp] theorem State.issue_x (s : State) (c : Byte) : (s.issue c).x = s.x := by
  unfold State.issue; split <;> rfl
@[simp] theorem State.issue_y (s : State) (c : Byte) : (s.issue c).y = s.y := by
  unfold State.issue; split <;> rfl
@[simp] theorem State.issue_key (s : State) (c : Byte) : (s.issue c).key = s.key := by
  unfold State.issue; split <;> rfl
@[simp] theorem State.issue_nonce (s : State) (c : Byte) : (s.issue c).nonce = s.nonce := by
  unfold State.issue; split <;> rfl
@[simp] theorem State.issue_pfx (s : State) (c : Byte) : (s.issue c).pfx = s.pfx := by
  unfold State.issue; split <;> rfl
@[simp] theorem State.issue_dataLen (s : State) (c : Byte) : (s.issue c).dataLen = s.dataLen := by
  unfold State.issue; split <;> rfl
@[simp] theorem State.issue_keyLen (s : State) (c : Byte) : (s.issue c).keyLen = s.keyLen := by
  unfold State.issue; split <;> rfl
@[simp] theorem State.issue_nonceLen (s : State) (c : Byte) : (s.issue c).nonceLen = s.nonceLen := by
  unfold State.issue; split <;> rfl
@[simp] theorem State.issue_pfxLen (s : State) (c : Byte) : (s.issue c).pfxLen = s.pfxLen := by
  unfold State.issue; split <;> rfl
@[simp] theorem State.issue_cmd (s : State) (c : Byte) : (s.issue c).cmd = c := by
  unfold State.issue; split <;> rfl
@[simp] theorem State.issue_status (s : State) (c : Byte) : (s.issue c).status = s.status := by
  unfold State.issue; split <;> rfl
@[simp] theorem State.issue_dbuf (s : State) (c : Byte) : (s.issue c).dbuf = s.dbuf := by
  unfold State.issue; split <;> rfl
@[simp] theorem State.issue_config (s : State) (c : Byte) : (s.issue c).config = s.config := by
  unfold State.issue; split <;> rfl
@[simp] theorem State.issue_agenda (s : State) (c : Byte) : (s.issue c).agenda = s.agenda := by
  unfold State.issue; split <;> rfl
@[simp] theorem State.issue_replies (s : State) (c : Byte) : (s.issue c).replies = s.replies := by
  unfold State.issue; split <;> rfl
@[simp] theorem State.issue_freeCount (s : State) (c : Byte) : (s.issue c).freeCount = s.freeCount := by
  unfold State.issue; split <;> rfl

@[simp] theorem State.issue_flags (s : State) (c : Byte) :
    (s.issue c).flags = if isCommand c then s.flags.issued else s.flags.marked := by
  unfold State.issue isCommand; cases decodeByte c <;> rfl

/-! ### `resetEvent` -/

@[simp] theorem freeBlock_getElem (n j : Nat) (h : j < 12) : (freeBlock n)[j] = Config.freeByte (n + j) := by
  simp [freeBlock]
@[simp] theorem freeNonce_getElem (n j : Nat) (h : j < 6) : (freeNonce n)[j] = Config.freeByte (n + j) := by
  simp [freeNonce]
@[simp] theorem State.resetEvent_a (s : State) : s.resetEvent.a = Config.freeByte s.freeCount := rfl
@[simp] theorem State.resetEvent_b (s : State) : s.resetEvent.b = Config.freeByte (s.freeCount + 1) := rfl
@[simp] theorem State.resetEvent_t (s : State) : s.resetEvent.t = Config.freeByte (s.freeCount + 2) := rfl
@[simp] theorem State.resetEvent_r (s : State) : s.resetEvent.r = Config.freeByte (s.freeCount + 3) := rfl
@[simp] theorem State.resetEvent_x (s : State) : s.resetEvent.x = freeBlock (s.freeCount + 4) := rfl
@[simp] theorem State.resetEvent_y (s : State) : s.resetEvent.y = freeBlock (s.freeCount + 16) := rfl
@[simp] theorem State.resetEvent_key (s : State) : s.resetEvent.key = freeBlock (s.freeCount + 28) := rfl
@[simp] theorem State.resetEvent_pfx (s : State) : s.resetEvent.pfx = freeBlock (s.freeCount + 40) := rfl
@[simp] theorem State.resetEvent_nonce (s : State) : s.resetEvent.nonce = freeNonce (s.freeCount + 52) := rfl
@[simp] theorem State.resetEvent_dataLen (s : State) : s.resetEvent.dataLen = 0 := rfl
@[simp] theorem State.resetEvent_keyLen (s : State) : s.resetEvent.keyLen = 0 := rfl
@[simp] theorem State.resetEvent_nonceLen (s : State) : s.resetEvent.nonceLen = 0 := rfl
@[simp] theorem State.resetEvent_pfxLen (s : State) : s.resetEvent.pfxLen = 0 := rfl
@[simp] theorem State.resetEvent_cmd (s : State) : s.resetEvent.cmd = 0 := rfl
@[simp] theorem State.resetEvent_status (s : State) : s.resetEvent.status = .ok := rfl
@[simp] theorem State.resetEvent_flags (s : State) : s.resetEvent.flags = ⟨false, false, false⟩ := rfl
@[simp] theorem State.resetEvent_dbuf (s : State) : s.resetEvent.dbuf = [] := rfl
@[simp] theorem State.resetEvent_config (s : State) : s.resetEvent.config = s.config := rfl
@[simp] theorem State.resetEvent_agenda (s : State) : s.resetEvent.agenda = s.agenda := rfl
@[simp] theorem State.resetEvent_replies (s : State) : s.resetEvent.replies = s.replies := rfl
@[simp] theorem State.resetEvent_freeCount (s : State) : s.resetEvent.freeCount = s.freeCount + resetDraws := rfl

/-! ### The flags -/

@[simp] theorem Flags.issued_busy (f : Flags) : f.issued.busy = true := rfl
@[simp] theorem Flags.issued_done (f : Flags) : f.issued.done = false := rfl
@[simp] theorem Flags.issued_illegal (f : Flags) : f.issued.illegal = f.illegal := rfl
@[simp] theorem Flags.completed_busy (f : Flags) : f.completed.busy = false := rfl
@[simp] theorem Flags.completed_done (f : Flags) : f.completed.done = true := rfl
@[simp] theorem Flags.completed_illegal (f : Flags) : f.completed.illegal = f.illegal := rfl
@[simp] theorem Flags.marked_busy (f : Flags) : f.marked.busy = f.busy := rfl
@[simp] theorem Flags.marked_done (f : Flags) : f.marked.done = f.done := rfl
@[simp] theorem Flags.marked_illegal (f : Flags) : f.marked.illegal = true := rfl

end Sys2Proof.Machine
end

