-- ==== Sys2Proof/Laws/Bus.lean ====
section
/-! SUPPORT. The laws of the address map: which offset is which location, and that no two offsets share one. -/

namespace Sys2Proof.Machine

/-- The offset of a location (R71). -/
def ByteLoc.offset : ByteLoc → Nat
  | .cmd => 0x0000
  | .flags => 0x0001
  | .status => 0x0002
  | .t => 0x0003
  | .a => 0x0004
  | .b => 0x0005
  | .r => 0x0006
  | .key j => 0x0020 + j.val
  | .nonce j => 0x0030 + j.val
  | .pfx j => 0x0040 + j.val
  | .x j => 0x0050 + j.val
  | .y j => 0x0060 + j.val
  | .dbuf addr => 0x1000 + addr

/-- A buffer address is below the capacity; the other locations have no such bound. -/
def ByteLoc.inside (cap : Nat) : ByteLoc → Prop
  | .dbuf addr => addr < cap
  | _ => True

/-- The two cases of a lookup that found `r`. -/
theorem ite_eq_cases {α : Type} {c : Prop} [Decidable c] {x y r : α} (h : (if c then x else y) = r) :
    (c ∧ x = r) ∨ (¬c ∧ y = r) := by
  by_cases hc : c
  · exact .inl ⟨hc, by rwa [if_pos hc] at h⟩
  · exact .inr ⟨hc, by rwa [if_neg hc] at h⟩

/-- The two cases of a lookup that found `r`, where the location needs its bound. -/
theorem dite_eq_cases {α : Type} {c : Prop} [Decidable c] {x : c → α} {y r : α} (h : (if hc : c then x hc else y) = r) :
    (∃ hc, x hc = r) ∨ (¬c ∧ y = r) := by
  by_cases hc : c
  · exact .inl ⟨hc, by rwa [dif_pos hc] at h⟩
  · exact .inr ⟨hc, by rwa [dif_neg hc] at h⟩

/-- The map sends an offset to the location whose offset it is, and to nothing else. -/
theorem byteLocAt_sound {cap o : Nat} {l : ByteLoc} (h : byteLocAt cap o = some l) : l.offset = o ∧ l.inside cap := by
  unfold byteLocAt at h
  iterate 7
    rcases ite_eq_cases h with ⟨hk, h⟩ | ⟨-, h⟩
    · obtain rfl := Option.some.inj h
      exact ⟨hk.symm, trivial⟩
  iterate 5
    rcases dite_eq_cases h with ⟨hk, h⟩ | ⟨-, h⟩
    · obtain rfl := Option.some.inj h
      exact ⟨Nat.add_sub_of_le hk.1, trivial⟩
  rcases ite_eq_cases h with ⟨hk, h⟩ | ⟨-, h⟩
  · obtain rfl := Option.some.inj h
    exact ⟨Nat.add_sub_of_le hk.1, by change o - 0x1000 < cap; omega⟩
  · cases h

/-- The map finds every location at its offset. -/
theorem byteLocAt_offset {cap : Nat} {l : ByteLoc} (h : l.inside cap) : byteLocAt cap l.offset = some l := by
  cases l with
  | key j =>
    have := j.isLt
    change byteLocAt cap (0x0020 + j.val) = _
    unfold byteLocAt
    iterate 7 rw [if_neg (by omega)]
    rw [dif_pos (by omega)]
    simp
  | nonce j =>
    have := j.isLt
    change byteLocAt cap (0x0030 + j.val) = _
    unfold byteLocAt
    iterate 7 rw [if_neg (by omega)]
    iterate 1 rw [dif_neg (by omega)]
    rw [dif_pos (by omega)]
    simp
  | pfx j =>
    have := j.isLt
    change byteLocAt cap (0x0040 + j.val) = _
    unfold byteLocAt
    iterate 7 rw [if_neg (by omega)]
    iterate 2 rw [dif_neg (by omega)]
    rw [dif_pos (by omega)]
    simp
  | x j =>
    have := j.isLt
    change byteLocAt cap (0x0050 + j.val) = _
    unfold byteLocAt
    iterate 7 rw [if_neg (by omega)]
    iterate 3 rw [dif_neg (by omega)]
    rw [dif_pos (by omega)]
    simp
  | y j =>
    have := j.isLt
    change byteLocAt cap (0x0060 + j.val) = _
    unfold byteLocAt
    iterate 7 rw [if_neg (by omega)]
    iterate 4 rw [dif_neg (by omega)]
    rw [dif_pos (by omega)]
    simp
  | dbuf addr =>
    change addr < cap at h
    change byteLocAt cap (0x1000 + addr) = _
    unfold byteLocAt
    iterate 7 rw [if_neg (by omega)]
    iterate 5 rw [dif_neg (by omega)]
    rw [if_pos (by omega)]
    simp
  | _ => rfl

/-- An offset of no location maps to nothing, and only such an offset does. -/
theorem byteLocAt_none {cap o : Nat} : byteLocAt cap o = none ↔ ¬ByteOffset cap o := by
  unfold byteLocAt ByteOffset
  constructor
  · intro h
    iterate 7
      rcases ite_eq_cases h with ⟨-, h⟩ | ⟨_, h⟩
      · cases h
    iterate 5
      rcases dite_eq_cases h with ⟨_, h⟩ | ⟨_, h⟩
      · cases h
    rcases ite_eq_cases h with ⟨-, h⟩ | ⟨_, h⟩
    · cases h
    omega
  · intro h
    iterate 7 rw [if_neg (by omega)]
    iterate 5 rw [dif_neg (by omega)]
    rw [if_neg (by omega)]

/-- Two locations at one offset are one. -/
theorem ByteLoc.offset_inj {cap : Nat} {l l' : ByteLoc} (h : l.inside cap) (h' : l'.inside cap)
    (he : l.offset = l'.offset) : l = l' := by
  have h1 := byteLocAt_offset h
  rw [he, byteLocAt_offset h'] at h1
  exact (Option.some.inj h1).symm

theorem wordLocAt_none {o : Nat} : wordLocAt o = none ↔ ¬WordOffset o := by
  unfold wordLocAt WordOffset
  constructor
  · intro h
    split_ifs at h
    omega
  · intro h
    rw [if_neg (by omega), if_neg (by omega), if_neg (by omega), if_neg (by omega)]

/-! ### The accesses of an idle core -/

/-- A byte read of an idle core at the offset of a location. -/
theorem State.read8_idle {s : State} {off : Word} {l : ByteLoc} {v : Byte} (hb : s.flags.busy = false)
    (hl : byteLocAt s.config.dbufBytes off.toNat = some l) (hv : s.readLoc l = .ok v) :
    s.access (.read8 off) = .next (s.reply (.byte v)) := by
  have : s.readable8 off = some l := by simp [State.readable8, hl, hb]
  simp only [State.access, this, hv]

/-- A byte read of an idle core at the offset of a location that stops the machine. -/
theorem State.read8_idle_fault {s : State} {off : Word} {l : ByteLoc} {f : Fault} (hb : s.flags.busy = false)
    (hl : byteLocAt s.config.dbufBytes off.toNat = some l) (hf : s.readLoc l = .error f) :
    s.access (.read8 off) = .fault f := by
  have : s.readable8 off = some l := by simp [State.readable8, hl, hb]
  simp only [State.access, this, hf]

/-- A byte write of an idle core at the offset of a location. -/
theorem State.write8_idle {s : State} {off : Word} {l : ByteLoc} (v : Byte) (hb : s.flags.busy = false)
    (hl : byteLocAt s.config.dbufBytes off.toNat = some l) :
    s.access (.write8 off v) = .next (s.writeLoc v l) := by
  have : s.writable8 off = some l := by simp [State.writable8, hl, hb]
  simp only [State.access, this]

/-- A 32-bit read of an idle core at the offset of a length register. -/
theorem State.read32_idle {s : State} {off : Word} {l : WordLoc} (hb : s.flags.busy = false)
    (hl : wordLocAt off.toNat = some l) : s.access (.read32 off) = .next (s.reply (.word (s.readWordLoc l))) := by
  have : s.reachable32 off = some l := by simp [State.reachable32, hl, hb]
  simp only [State.access, this]

/-- A 32-bit write of an idle core at the offset of a length register. -/
theorem State.write32_idle {s : State} {off : Word} {l : WordLoc} (w : Word) (hb : s.flags.busy = false)
    (hl : wordLocAt off.toNat = some l) : s.access (.write32 off w) = .next (s.writeWordLoc w l) := by
  have : s.reachable32 off = some l := by simp [State.reachable32, hl, hb]
  simp only [State.access, this]

/-! ### What a store leaves -/

@[simp] theorem State.writeLoc_config (s : State) (v : Byte) (l : ByteLoc) : (s.writeLoc v l).config = s.config := by
  cases l <;> simp [State.writeLoc]

@[simp] theorem State.writeLoc_status (s : State) (v : Byte) (l : ByteLoc) : (s.writeLoc v l).status = s.status := by
  cases l <;> simp [State.writeLoc]

@[simp] theorem State.writeLoc_agenda (s : State) (v : Byte) (l : ByteLoc) : (s.writeLoc v l).agenda = s.agenda := by
  cases l <;> simp [State.writeLoc]

@[simp] theorem State.writeWordLoc_config (s : State) (w : Word) (l : WordLoc) :
    (s.writeWordLoc w l).config = s.config := by
  cases l <;> rfl

/-- A store to a read-write location reads back. -/
theorem State.readLoc_writeLoc_same {s : State} {v : Byte} {l : ByteLoc} (h : ¬ReadOnlyOffset l.offset)
    (hc : l ≠ .cmd) : (s.writeLoc v l).readLoc l = .ok v := by
  cases l with
  | cmd => exact absurd rfl hc
  | flags => simp [ReadOnlyOffset, ByteLoc.offset] at h
  | status => simp [ReadOnlyOffset, ByteLoc.offset] at h
  | r => simp [ReadOnlyOffset, ByteLoc.offset] at h
  | y j => exact absurd (.inr (.inr (.inr (by have := j.isLt; simp only [ByteLoc.offset]; omega)))) h
  | dbuf addr => simp [State.writeLoc, State.readLoc, Memory.read_write_same]
  | _ => simp [State.writeLoc, State.readLoc]

end Sys2Proof.Machine
end

