-- ==== Sys2Proof/Laws/Decode.lean ====
section
/-! SUPPORT. The laws of the decoder: no two rows of the opcode map overlap, every row's own code selects it. -/

namespace Sys2Proof

/-- No code matches two rows of the opcode map. -/
theorem opcodeTable_disjoint :
    opcodeTable.Pairwise fun p q => p.pattern &&& (p.mask &&& q.mask) ≠ q.pattern &&& (p.mask &&& q.mask) := by
  decide

theorem decodeByte_opcode (i : Instr) : decodeByte (opcode i) = .ok i := by cases i <;> rfl

@[simp] theorem isCommand_opcode (i : Instr) : isCommand (opcode i) = true := by cases i <;> rfl

theorem isCommand_iff (c : Byte) : isCommand c = true ↔ ∃ i, decodeByte c = .ok i := by
  unfold isCommand; cases decodeByte c <;> simp

/-- The decoder on a code that is a command's. -/
theorem decodeByte_of_isCommand {c : Byte} (h : isCommand c = true) : ∃ i, decodeByte c = .ok i := (isCommand_iff c).1 h

theorem tableByte_opcode (i : Instr) : tableByte 8 (opcode i).toNat = opcode i := by cases i <;> rfl

end Sys2Proof
end

