-- ==== Sys2Proof/Laws/Ops.lean ====
section
/-! SUPPORT. What each shared operation can answer, said once: the checks, the data, the thirteen meanings. -/

namespace Sys2Proof.Machine

@[simp] theorem complete_eq (s : State) : complete s = .next (s.finish .ok) := rfl

@[simp] theorem raise_eq (code : Status) (s : State) : raise code s = .next (s.finish code) := rfl

/-- A list of checks passes when each of them does. -/
theorem firstFailure_none {checks : List (Bool × Status)} :
    firstFailure checks = none ↔ ∀ p ∈ checks, p.1 = true := by
  induction checks with
  | nil => simp [firstFailure]
  | cons p checks ih =>
    obtain ⟨passed, code⟩ := p
    cases passed <;> simp [firstFailure, ih]

/-- The status of a failure is that of some check. -/
theorem firstFailure_some {checks : List (Bool × Status)} {code : Status} (h : firstFailure checks = some code) :
    ∃ p ∈ checks, p.1 = false ∧ p.2 = code := by
  induction checks with
  | nil => simp [firstFailure] at h
  | cons p checks ih =>
    obtain ⟨passed, code'⟩ := p
    cases passed
    · exact ⟨_, List.mem_cons_self, rfl, by simpa [firstFailure] using h⟩
    · obtain ⟨q, hq, h1, h2⟩ := ih (by simpa [firstFailure] using h)
      exact ⟨q, List.mem_cons_of_mem _ hq, h1, h2⟩

theorem validated_failed {checks : List (Bool × Status)} {code : Status} {s : State}
    {work : State → Host.Outcome State Fault Refusal} (h : firstFailure checks = some code) :
    validated checks s work = .next (s.finish code) := by
  simp [validated, h]

theorem validated_passed {checks : List (Bool × Status)} {s : State}
    {work : State → Host.Outcome State Fault Refusal} (h : firstFailure checks = none) :
    validated checks s work = work s := by
  simp [validated, h]

/-- Everything a mode command can do: fail a check and write only its status; stop at an unwritten byte of data; or
complete with the state `f` makes of the data. -/
theorem modeCommand_cases (checks : List (Bool × Status)) (s : State) (f : State → List Block → State) :
    (∃ code, firstFailure checks = some code ∧
      validated checks s (fun s => withData s fun d => complete (f s d)) = .next (s.finish code)) ∨
    (firstFailure checks = none ∧ ∃ addr, s.dbuf.firstUnwritten 0 (12 * s.dataBlocks) = some addr ∧
      validated checks s (fun s => withData s fun d => complete (f s d)) = .fault (.unwrittenData addr)) ∨
    (firstFailure checks = none ∧ s.dbuf.firstUnwritten 0 (12 * s.dataBlocks) = none ∧
      validated checks s (fun s => withData s fun d => complete (f s d)) = .next ((f s s.data).finish .ok)) := by
  cases h : firstFailure checks with
  | some code => exact .inl ⟨code, rfl, validated_failed h⟩
  | none =>
    rw [validated_passed h]
    cases hu : s.dbuf.firstUnwritten 0 (12 * s.dataBlocks) with
    | some addr => exact .inr (.inl ⟨rfl, addr, rfl, by simp [withData, hu]⟩)
    | none => exact .inr (.inr ⟨rfl, rfl, by simp [withData, hu]⟩)

/-! ### The thirteen commands -/

@[simp] theorem exec_gfmul (s : State) : exec .gfmul s = .next ((s.setR (gfMul s.a s.b)).finish .ok) := rfl
@[simp] theorem exec_gfinv (s : State) : exec .gfinv s = .next ((s.setR (gfInv s.a)).finish .ok) := rfl
@[simp] theorem exec_affine (s : State) : exec .affine s = .next ((s.setR (affine s.config s.a)).finish .ok) := rfl
@[simp] theorem exec_sbox (s : State) : exec .sbox s = .next ((s.setR (sbox s.config s.a)).finish .ok) := rfl
@[simp] theorem exec_theta (s : State) : exec .theta s = .next ((s.setY (theta s.x)).finish .ok) := rfl
@[simp] theorem exec_thetai (s : State) : exec .thetai s = .next ((s.setY (thetaInv s.x)).finish .ok) := rfl
@[simp] theorem exec_perm (s : State) : exec .perm s = .next ((s.setY (perm s.x)).finish .ok) := rfl
@[simp] theorem exec_ksnext (s : State) :
    exec .ksnext s = .next ((s.setY (ksNext s.config s.x s.t.toNat)).finish .ok) := rfl
@[simp] theorem exec_encblk (s : State) : exec .encblk s = .next ((s.setY (encBlock s.config s.x s.key)).finish .ok) := rfl

/-- Everything `CTR` can do. -/
theorem exec_ctr_cases (s : State) :
    (∃ code, firstFailure (ctrChecks s) = some code ∧ exec .ctr s = .next (s.finish code)) ∨
    (firstFailure (ctrChecks s) = none ∧ ∃ addr, s.dbuf.firstUnwritten 0 (12 * s.dataBlocks) = some addr ∧
      exec .ctr s = .fault (.unwrittenData addr)) ∨
    (firstFailure (ctrChecks s) = none ∧ s.dbuf.firstUnwritten 0 (12 * s.dataBlocks) = none ∧
      exec .ctr s = .next ((s.setData (ctrApply s.config s.data s.key s.nonce)).finish .ok)) :=
  modeCommand_cases (ctrChecks s) s fun s d => s.setData (ctrApply s.config d s.key s.nonce)

/-- Everything `HASH` can do. -/
theorem exec_hash_cases (s : State) :
    (∃ code, firstFailure (hashChecks s) = some code ∧ exec .hash s = .next (s.finish code)) ∨
    (firstFailure (hashChecks s) = none ∧ ∃ addr, s.dbuf.firstUnwritten 0 (12 * s.dataBlocks) = some addr ∧
      exec .hash s = .fault (.unwrittenData addr)) ∨
    (firstFailure (hashChecks s) = none ∧ s.dbuf.firstUnwritten 0 (12 * s.dataBlocks) = none ∧
      exec .hash s = .next ((s.setY (dmHash s.config s.data)).finish .ok)) :=
  modeCommand_cases (hashChecks s) s fun s d => s.setY (dmHash s.config d)

/-- Everything `HMAC` can do. -/
theorem exec_hmac_cases (s : State) :
    (∃ code, firstFailure (hmacChecks s) = some code ∧ exec .hmac s = .next (s.finish code)) ∨
    (firstFailure (hmacChecks s) = none ∧ ∃ addr, s.dbuf.firstUnwritten 0 (12 * s.dataBlocks) = some addr ∧
      exec .hmac s = .fault (.unwrittenData addr)) ∨
    (firstFailure (hmacChecks s) = none ∧ s.dbuf.firstUnwritten 0 (12 * s.dataBlocks) = none ∧
      exec .hmac s = .next ((s.setY (hmacTag s.config s.data s.key s.optionalBlock)).finish .ok)) :=
  modeCommand_cases (hmacChecks s) s fun s d => s.setY (hmacTag s.config d s.key s.optionalBlock)

/-- Everything `AE` can do. -/
theorem exec_ae_cases (s : State) :
    (∃ code, firstFailure (ctrChecks s) = some code ∧ exec .ae s = .next (s.finish code)) ∨
    (firstFailure (ctrChecks s) = none ∧ ∃ addr, s.dbuf.firstUnwritten 0 (12 * s.dataBlocks) = some addr ∧
      exec .ae s = .fault (.unwrittenData addr)) ∨
    (firstFailure (ctrChecks s) = none ∧ s.dbuf.firstUnwritten 0 (12 * s.dataBlocks) = none ∧
      exec .ae s = .next (((s.setData (aeSeal s.config s.data s.key s.nonce).1).setY
        (aeSeal s.config s.data s.key s.nonce).2).finish .ok)) :=
  modeCommand_cases (ctrChecks s) s fun s d =>
    (s.setData (aeSeal s.config d s.key s.nonce).1).setY (aeSeal s.config d s.key s.nonce).2

/-! ### The functions over blocks -/

@[simp] theorem ctrFrom_length (c : Config) (k cb : Block) (data : List Block) :
    (ctrFrom c k cb data).length = data.length := by
  induction data generalizing cb with
  | nil => rfl
  | cons d ds ih => simp [ctrFrom, ih]

@[simp] theorem ctrApply_length (c : Config) (data : List Block) (k : Block) (n : Nonce) :
    (ctrApply c data k n).length = data.length := ctrFrom_length c k _ data

@[simp] theorem State.data_length (s : State) : s.data.length = s.dataBlocks := by simp [State.data]

/-- The data is inside the buffer when the length check passes. -/
theorem State.dataBlocks_fit {s : State} (h : s.dataFits = true) : 12 * s.dataBlocks ≤ s.config.dbufBytes := by
  have h : s.dataLen.toNat / 8 ≤ s.config.dbufBytes := Nat.le_of_ble_eq_true h
  unfold State.dataBlocks
  omega

end Sys2Proof.Machine
end

