-- ==== Sys2Proof/Laws/Checks.lean ====
section
/-! SUPPORT. The checks of the mode commands in the words of the statements: when they pass, and which status a failure
gives. -/

namespace Sys2Proof.Machine

theorem State.ended_eq (s : State) (st : Status) : s.ended st = s.finish st := rfl

theorem ctrChecks_none {s : State} : firstFailure (ctrChecks s) = none ↔ s.CtrLengthOk ∧ s.nonceLen = 48 := by
  rw [firstFailure_none]
  simp [ctrChecks, State.CtrLengthOk, State.dataAligned, State.dataFits, State.dataBytes, and_assoc]

theorem hashChecks_none {s : State} : firstFailure (hashChecks s) = none ↔ s.HashLengthOk := by
  rw [firstFailure_none]
  simp [hashChecks, State.HashLengthOk, State.dataAligned, State.dataFits, State.dataBytes]

theorem hmacChecks_none {s : State} :
    firstFailure (hmacChecks s) = none ↔ s.keyLen = 96 ∧ s.HashLengthOk ∧ s.PfxLengthOk := by
  rw [firstFailure_none]
  simp [hmacChecks, State.HashLengthOk, State.PfxLengthOk, State.dataAligned, State.dataFits, State.dataBytes,
    and_assoc]

/-- The data length decides first (R212). -/
theorem ctrChecks_badLength {s : State} (h : ¬s.CtrLengthOk) :
    firstFailure (ctrChecks s) = some .invalidDataLength := by
  simp only [ctrChecks, firstFailure, State.CtrLengthOk, State.dataAligned, State.dataFits, State.dataBytes] at h ⊢
  split_ifs with h1 h2 h3 <;> first | rfl | (exfalso; apply h; simp_all)

theorem ctrChecks_badNonce {s : State} (h : s.CtrLengthOk) (hn : s.nonceLen ≠ 48) :
    firstFailure (ctrChecks s) = some .invalidNonceLength := by
  simp only [ctrChecks, firstFailure, State.CtrLengthOk, State.dataAligned, State.dataFits, State.dataBytes] at h ⊢
  simp_all

theorem hashChecks_badLength {s : State} (h : ¬s.HashLengthOk) :
    firstFailure (hashChecks s) = some .invalidDataLength := by
  simp only [hashChecks, firstFailure, State.HashLengthOk, State.dataAligned, State.dataFits, State.dataBytes] at h ⊢
  split_ifs with h1 h2 <;> first | rfl | (exfalso; apply h; simp_all)

theorem hmacChecks_badKey {s : State} (h : s.keyLen ≠ 96) : firstFailure (hmacChecks s) = some .invalidKeyLength := by
  simp only [hmacChecks, firstFailure]
  simp_all

theorem hmacChecks_badLength {s : State} (hk : s.keyLen = 96) (h : ¬(s.HashLengthOk ∧ s.PfxLengthOk)) :
    firstFailure (hmacChecks s) = some .invalidDataLength := by
  simp only [hmacChecks, firstFailure, State.HashLengthOk, State.PfxLengthOk, State.dataAligned, State.dataFits,
    State.dataBytes] at h ⊢
  split_ifs with h1 h2 h3 h4 <;> simp_all

/-- A data length that passes counts whole blocks. -/
theorem State.dataBytes_eq {s : State} (h : s.dataLen.toNat % 96 = 0) : s.dataBytes = 12 * s.dataBlocks := by
  unfold State.dataBytes State.dataBlocks
  omega

theorem State.firstUnwritten_of_written {s : State} (h : s.DataWritten) :
    s.dbuf.firstUnwritten 0 (12 * s.dataBlocks) = none := by
  rw [Memory.firstUnwritten_none]
  intro k hk
  have : k < s.dataBytes := by unfold State.dataBytes; unfold State.dataBlocks at hk; omega
  simpa using h k this

/-- The blocks a buffer holds are what the command reads. -/
theorem State.data_of_holds {s : State} {bs : List Block} (h : s.HoldsData bs) : s.data = bs := by
  obtain ⟨hl, hb⟩ := h
  refine List.ext_getElem (by simp [hl]) fun i h1 h2 => Vector.ext fun j hj => ?_
  simp only [State.data, Memory.readBlocks_getElem, Memory.readBlock_getElem]
  simp [hb i h2 j hj]

theorem State.written_of_holds {s : State} {bs : List Block} (h : s.HoldsData bs) :
    s.dbuf.firstUnwritten 0 (12 * s.dataBlocks) = none := by
  obtain ⟨hl, hb⟩ := h
  rw [Memory.firstUnwritten_none]
  intro k hk
  have := hb (k / 12) (by omega) (k % 12) (Nat.mod_lt _ (by omega))
  rw [Nat.div_add_mod] at this
  simp [this]

/-- Written data is held as the blocks the command reads. -/
theorem State.holds_of_written {s : State} (h : s.dbuf.firstUnwritten 0 (12 * s.dataBlocks) = none) :
    s.HoldsData s.data := by
  refine ⟨by simp, fun i hi j hj => ?_⟩
  rw [Memory.firstUnwritten_none] at h
  simp only [State.data_length] at hi
  have hs := h (12 * i + j) (by omega)
  simp only [Nat.zero_add] at hs
  obtain ⟨v, hv⟩ := Option.isSome_iff_exists.1 hs
  simp only [State.data, Memory.readBlocks_getElem, Memory.readBlock_getElem]
  simp [hv]

/-- What the buffer holds after the data of a command was replaced. -/
theorem State.setData_holds (s : State) {bs : List Block} (h : bs.length = s.dataBlocks) :
    (s.setData bs).HoldsData bs := by
  refine ⟨h, fun i hi j hj => ?_⟩
  have hlt : 12 * i + j < (blockBytes bs).length := by simp; omega
  have := Memory.read_writeBytes_inside s.dbuf 0 (12 * i + j) (blockBytes bs) hlt
  rw [Nat.zero_add] at this
  rw [State.setData_dbuf, this, blockBytes_getElem bs i j hi hj hlt]

theorem State.setData_outside (s : State) {bs : List Block} (h : bs.length = s.dataBlocks) {a : Nat}
    (ha : 12 * s.dataBlocks ≤ a) : (s.setData bs).dbuf.read a = s.dbuf.read a := by
  rw [State.setData_dbuf, Memory.read_writeBytes_outside]
  right
  simp [h, ha]

end Sys2Proof.Machine
end

