-- ==== Sys2Proof/Laws/PerInstr.lean ====
section
/-! SUPPORT. The per-command family `CommandByte`: a command is well formed, is one byte long, and its byte decodes to it
whatever follows. -/

namespace Sys2Proof.Laws.CommandByte

def Statement (i : Instr) : Prop :=
  i.wf = true ∧ (encode i).length = 1 ∧ ∀ rest, decode (encode i ++ rest) = .ok (i, rest)

theorem gfmul : Statement .gfmul := ⟨rfl, rfl, fun _ => rfl⟩
theorem gfinv : Statement .gfinv := ⟨rfl, rfl, fun _ => rfl⟩
theorem affine : Statement .affine := ⟨rfl, rfl, fun _ => rfl⟩
theorem sbox : Statement .sbox := ⟨rfl, rfl, fun _ => rfl⟩
theorem theta : Statement .theta := ⟨rfl, rfl, fun _ => rfl⟩
theorem thetai : Statement .thetai := ⟨rfl, rfl, fun _ => rfl⟩
theorem perm : Statement .perm := ⟨rfl, rfl, fun _ => rfl⟩
theorem ksnext : Statement .ksnext := ⟨rfl, rfl, fun _ => rfl⟩
theorem encblk : Statement .encblk := ⟨rfl, rfl, fun _ => rfl⟩
theorem ctr : Statement .ctr := ⟨rfl, rfl, fun _ => rfl⟩
theorem hash : Statement .hash := ⟨rfl, rfl, fun _ => rfl⟩
theorem hmac : Statement .hmac := ⟨rfl, rfl, fun _ => rfl⟩
theorem ae : Statement .ae := ⟨rfl, rfl, fun _ => rfl⟩

end Sys2Proof.Laws.CommandByte
end

