-- ==== Sys2Proof/Laws/Step.lean ====
section
/-! SUPPORT. What a host access and a step can do, said once. -/

namespace Sys2Proof.Machine

/-- Everything a host access can do: stop at an unwritten byte of the buffer; a reply and nothing else; a store; an illegal
event. -/
theorem State.access_cases (s : State) (acc : Access) :
    (∃ off addr, acc = .read8 off ∧ s.readable8 off = some (.dbuf addr) ∧ s.dbuf.read addr = none ∧
      s.access acc = .fault (.unwrittenData addr)) ∨
    (∃ off l v, acc = .read8 off ∧ s.readable8 off = some l ∧ s.readLoc l = .ok v ∧
      s.access acc = .next (s.reply (.byte v))) ∨
    (∃ off l, acc = .read32 off ∧ s.reachable32 off = some l ∧
      s.access acc = .next (s.reply (.word (s.readWordLoc l)))) ∨
    (∃ off l v, acc = .write8 off v ∧ s.writable8 off = some l ∧ s.access acc = .next (s.writeLoc v l)) ∨
    (∃ off l v, acc = .write32 off v ∧ s.reachable32 off = some l ∧ s.access acc = .next (s.writeWordLoc v l)) ∨
    (∃ off, acc = .read8 off ∧ s.readable8 off = none ∧ s.access acc = .next s.forbiddenRead8) ∨
    (∃ off, acc = .read32 off ∧ s.reachable32 off = none ∧ s.access acc = .next s.forbiddenRead32) ∨
    (∃ off v, acc = .write8 off v ∧ s.writable8 off = none ∧ s.access acc = .next s.markIllegal) ∨
    (∃ off v, acc = .write32 off v ∧ s.reachable32 off = none ∧ s.access acc = .next s.markIllegal) := by
  cases acc with
  | read8 off =>
    cases hl : s.readable8 off with
    | none => simp [State.access, hl]
    | some l =>
      cases hv : s.readLoc l with
      | ok v => simp [State.access, hl, hv]
      | error f =>
        cases l <;> simp [State.readLoc] at hv
        rename_i addr
        cases hr : s.dbuf.read addr with
        | some v => simp [hr] at hv
        | none => simp [State.access, State.readLoc, hl, hr]
  | read32 off => cases hl : s.reachable32 off <;> simp [State.access, hl]
  | write8 off v => cases hl : s.writable8 off <;> simp [State.access, hl]
  | write32 off v => cases hl : s.reachable32 off <;> simp [State.access, hl]

/-- Everything a step can do: the host's access, the reset, the command in progress, nothing at all, or the stop of a busy
core whose `CMD` holds no command. -/
theorem step_cases (s : State) :
    (∃ acc s', s.popEvent = (.host acc, s') ∧ step s = s'.access acc) ∨
    (∃ s', s.popEvent = (.reset, s') ∧ step s = .next s'.resetEvent) ∨
    (∃ s' i, s.popEvent = (.core, s') ∧ s'.flags.busy = true ∧ decodeByte s'.cmd = .ok i ∧ step s = exec i s') ∨
    (∃ s', s.popEvent = (.core, s') ∧ s'.flags.busy = false ∧ step s = .next s') ∨
    (∃ s', s.popEvent = (.core, s') ∧ s'.flags.busy = true ∧ isCommand s'.cmd = false ∧
      step s = .fault (.busyWithReservedCode s'.cmd)) := by
  cases hp : s.popEvent with
  | mk e s' =>
    cases e with
    | host acc => exact .inl ⟨acc, s', rfl, by simp [step, hp]⟩
    | reset => exact .inr (.inl ⟨s', rfl, by simp [step, hp]⟩)
    | core =>
      cases hb : s'.flags.busy with
      | false => exact .inr (.inr (.inr (.inl ⟨s', rfl, hb, by simp [step, hp, hb]⟩)))
      | true =>
        cases hd : decodeByte s'.cmd with
        | ok i => exact .inr (.inr (.inl ⟨s', i, rfl, hb, hd, by simp [step, hp, hb, State.fetch, hd]⟩))
        | error e =>
          exact .inr (.inr (.inr (.inr ⟨s', rfl, hb, by simp [isCommand, hd],
            by simp [step, hp, hb, State.fetch, hd]⟩)))

/-- Taking the next move off the agenda changes the agenda alone. -/
theorem State.popEvent_state {s s' : State} {e : Event} (h : s.popEvent = (e, s')) :
    s' = s.setAgenda s.agenda.tail := by
  unfold State.popEvent at h
  split at h
  · rename_i ha
    obtain ⟨rfl, rfl⟩ := by simpa using h
    simp only [State.setAgenda, ha, List.tail_nil]
    rw [← ha]
  · rename_i ha
    obtain ⟨rfl, rfl⟩ := by simpa using h
    simp [ha]

end Sys2Proof.Machine
end

