-- ==== Sys2Proof/Laws/Tables.lean ====
section
/-! SUPPORT. The 256 values of `gf_inv` and of the reference `sbox` that 95_test_vectors.md lists, and the cipher computed
with the second table, for checks on numbers. -/

namespace Sys2Proof

/-- The byte at row `v div 16`, column `v mod 16` of a table whose rows are 16 bytes each, written first byte first. -/
def lookupByte (rows : List Nat) (v : Byte) : Byte :=
  BitVec.ofNat 8 (rows.getD (v.toNat / 16) 0 >>> (8 * (15 - v.toNat % 16)))

/-- The table of 95_test_vectors.md 2.2. -/
def gfInvRows : List Nat :=
  [0x00018DF6CB527BD1E84F29C0B0E1E5C7, 0x74B4AA4B992B605F583FFDCCFF40EEB2,
   0x3A6E5AF1554DA8C9C10A98153044A2C2, 0x2C45926CF3396642F235206F77BB5919,
   0x1DFE37672D31F569A764AB135425E909, 0xED5C05CA4C2487BF183E22F051EC6117,
   0x165EAFD349A63643F44791DF3393213B, 0x79B7978510B5BA3CB670D006A1FA8182,
   0x837E7F809673BE569B9E95D9F702B9A4, 0xDE6A326DD88A84722A149F88F9DC899A,
   0xFB7C2EC38FB8654826C8124ACEE7D262, 0x0CE01FEF11757871A58E763DBDBC8657,
   0x0B282FA3DAD4E40FA92753041BFCACE6, 0x7A07AE63C5DBE2EA948BC4D59DF8906B,
   0xB10DD6EBC60ECFAD084ED7E35D501EB3, 0x5B2338346846038CDD9C7DA0CD1A411C]

/-- The second table of 95_test_vectors.md 2.3. -/
def sboxRows : List Nat :=
  [0x637C777BF26B6FC53001672BFED7AB76, 0xCA82C97DFA5947F0ADD4A2AF9CA472C0,
   0xB7FD9326363FF7CC34A5E5F171D83115, 0x04C723C31896059A071280E2EB27B275,
   0x09832C1A1B6E5AA0523BD6B329E32F84, 0x53D100ED20FCB15B6ACBBE394A4C58CF,
   0xD0EFAAFB434D338545F9027F503C9FA8, 0x51A3408F929D38F5BCB6DA2110FFF3D2,
   0xCD0C13EC5F974417C4A77E3D645D1973, 0x60814FDC222A908846EEB814DE5E0BDB,
   0xE0323A0A4906245CC2D3AC629195E479, 0xE7C8376D8DD54EA96C56F4EA657AAE08,
   0xBA78252E1CA6B4C6E8DD741F4BBD8B8A, 0x703EB5664803F60E613557B986C11D9E,
   0xE1F8981169D98E949B1E87E9CE5528DF, 0x8CA1890DBFE6426841992D0FB054BB16]

/-- All 256 inverses are those of the spec's table. -/
theorem gfInv_table : gfInv = lookupByte gfInvRows := by
  have h : ∀ v : Fin 256, gfInv (.ofFin v) = lookupByte gfInvRows (.ofFin v) := by decide +kernel
  exact funext fun v => h v.toFin

/-- All 256 affine images of the table of inverses are those of the spec's table of the S-box. -/
theorem affine_table : ∀ v : Byte, affine .reference (lookupByte gfInvRows v) = lookupByte sboxRows v := by
  have h : ∀ v : Fin 256, affine .reference (lookupByte gfInvRows (.ofFin v)) = lookupByte sboxRows (.ofFin v) := by
    decide +kernel
  exact fun v => h v.toFin

/-- All 256 values of the reference S-box are those of the spec's table. -/
theorem sbox_table (v : Byte) : sbox .reference v = lookupByte sboxRows v := by
  rw [sbox, gfInv_table]; exact affine_table v

/-- `ks_next` of the reference parameters by the table. -/
def tableKsNext (prev : Block) (t : Nat) : Block :=
  let n0 := lookupByte sboxRows prev[0] ^^^ rc t
  let n1 := lookupByte sboxRows prev[1] ^^^ rc t
  let n2 := lookupByte sboxRows prev[2] ^^^ rc t
  #v[n0, n1, n2, prev[3] ^^^ n0, prev[4] ^^^ n1, prev[5] ^^^ n2,
     prev[6] ^^^ (prev[3] ^^^ n0), prev[7] ^^^ (prev[4] ^^^ n1), prev[8] ^^^ (prev[5] ^^^ n2),
     prev[9] ^^^ (prev[6] ^^^ (prev[3] ^^^ n0)), prev[10] ^^^ (prev[7] ^^^ (prev[4] ^^^ n1)),
     prev[11] ^^^ (prev[8] ^^^ (prev[5] ^^^ n2))]

/-- The rounds of the reference cipher by the table. -/
def tableRounds (s rk : Block) : List Nat → Block
  | [] => s
  | t :: ts =>
    tableRounds ((perm (Block.ofFn fun i => lookupByte sboxRows (theta s)[i])).xor (tableKsNext rk t)) (tableKsNext rk t) ts

/-- `enc_block` of the reference parameters by the table. -/
def tableEnc (p k : Block) : Block := tableRounds ((thetaInv p).xor k) k [1, 2, 3, 4, 5, 6, 7, 8, 9, 10]

theorem ksNext_table (prev : Block) (t : Nat) : ksNext .reference prev t = tableKsNext prev t := by
  have h (j : Fin 3) : ksFirst .reference prev t j = lookupByte sboxRows prev[j.val] ^^^ rc t := by
    rw [ksFirst, sbox_table]
    fin_cases j <;> simp [Config.reference]
  simp only [ksNext, tableKsNext, h]
  rfl

theorem cipherRounds_table (ts : List Nat) : ∀ s rk : Block,
    cipherRounds .reference s rk ts = tableRounds s rk ts := by
  induction ts with
  | nil => exact fun _ _ => rfl
  | cons t ts ih =>
    intro s rk
    simp only [cipherRounds, tableRounds, cipherRound, sboxBlock, sbox_table, ksNext_table, ih]

/-- The reference cipher is the one computed by the table. -/
theorem encBlock_table (p k : Block) : encBlock .reference p k = tableEnc p k := cipherRounds_table _ _ _

end Sys2Proof
end

