-- ==== Sys2Proof/Tests/Slice0.lean ====
section
/-! SUPPORT. The model's own tests, expected results from spec/ (95_test_vectors.md unless said), and a witness for the
hypotheses of every statement. -/

namespace Sys2Proof.Tests

open Sys2Proof Sys2Proof.Machine

/-! ### Helpers -/

/-- What `f` says of the next state, nothing after a fault or a refusal. -/
def after {α : Type} (o : Host.Outcome State Fault Refusal) (f : State → α) : Option α :=
  match o with
  | .next t => some (f t)
  | .fault _ => none
  | .refused _ => none

/-- The reset state with these values of `A` and `B`. -/
def scalar (a b : Byte) : State := { State.reset with a := a, b := b }

/-- The reset state with these values of `X`, `T` and `KEY`. -/
def blocks (x : Block) (t : Byte) (k : Block) : State := { State.reset with x := x, t := t, key := k }

/-- `10 11 ... 1B`, the key of the spec's vectors. -/
def vectorKey : Block := #v[0x10, 0x11, 0x12, 0x13, 0x14, 0x15, 0x16, 0x17, 0x18, 0x19, 0x1A, 0x1B]

/-- `A0 ... A5`, the nonce of the spec's vectors. -/
def vectorNonce : Nonce := #v[0xA0, 0xA1, 0xA2, 0xA3, 0xA4, 0xA5]

/-- `0C 0D ... 17`, the second data block of the spec's vectors. -/
def secondBlock : Block := #v[0x0C, 0x0D, 0x0E, 0x0F, 0x10, 0x11, 0x12, 0x13, 0x14, 0x15, 0x16, 0x17]

/-- The zero block. -/
def zero : Block := Block.const 0

/-- A state with a key, a nonce and data, lengths set for CTR, HASH, HMAC without the optional block, and AE. -/
def mode (k : Block) (n : Nonce) (bs : List Block) : State :=
  { State.reset with
    key := k, nonce := n, dataLen := BitVec.ofNat 32 (96 * bs.length), keyLen := 96, nonceLen := 48,
    dbuf := Memory.writeBytes [] 0 (blockBytes bs) }

/-- One zero block of data, zero key and nonce. -/
def oneZero : State := mode zero (Nonce.ofFn fun _ => 0) [zero]

/-- The spec's two-block data, key and nonce. -/
def twoBlocks : State := mode vectorKey vectorNonce [countingBlock, secondBlock]

/-- A busy core that was issued this command. -/
def busyWith (i : Instr) : State := { oneZero with cmd := opcode i, flags := { busy := true, done := false, illegal := false } }

/-! ### Decoding: each code written out bit by bit from the table of R92 -/

theorem test_decode_gfmul : decodeTableWord 8 0b00000001 = some .gfmul := by decide
theorem test_decode_gfinv : decodeTableWord 8 0b00000010 = some .gfinv := by decide
theorem test_decode_affine : decodeTableWord 8 0b00000011 = some .affine := by decide
theorem test_decode_sbox : decodeTableWord 8 0b00000100 = some .sbox := by decide
theorem test_decode_theta : decodeTableWord 8 0b00000101 = some .theta := by decide
theorem test_decode_thetai : decodeTableWord 8 0b00000110 = some .thetai := by decide
theorem test_decode_perm : decodeTableWord 8 0b00000111 = some .perm := by decide
theorem test_decode_ksnext : decodeTableWord 8 0b00001000 = some .ksnext := by decide
theorem test_decode_encblk : decodeTableWord 8 0b00001001 = some .encblk := by decide
theorem test_decode_ctr : decodeTableWord 8 0b00001010 = some .ctr := by decide
theorem test_decode_hash : decodeTableWord 8 0b00001011 = some .hash := by decide
theorem test_decode_hmac : decodeTableWord 8 0b00001100 = some .hmac := by decide
theorem test_decode_ae : decodeTableWord 8 0b00001101 = some .ae := by decide

/-- R96: the neighbours of the table are rejected by name. -/
theorem test_decode_reserved :
    decode [0x00] = .error (.reservedCode 0x00) ∧ decode [0x0E] = .error (.reservedCode 0x0E) ∧
    decode [0xFF] = .error (.reservedCode 0xFF) ∧ decode [0x81] = .error (.reservedCode 0x81) ∧
    decode [] = .error .noByte := ⟨rfl, rfl, rfl, rfl, rfl⟩

/-! ### Well-formedness of the parameters (R8): one ill-formed value for each check -/

theorem test_wf_reference : Config.reference.Admissible := by decide +kernel
theorem test_wf_aesLike : Config.aesLike.Admissible := by decide +kernel

theorem test_wf_capacity_blocks : ¬({ Config.reference with dbufBytes := 13 } : Config).CapacityBlocks := by decide
theorem test_wf_capacity_positive : ¬({ Config.reference with dbufBytes := 0 } : Config).CapacityPositive := by decide

/-- `8*DBUF_BYTES = 2^32` at `DBUF_BYTES = 2^29`. -/
theorem test_wf_capacity_addressable :
    ¬({ Config.reference with dbufBytes := 2 ^ 29 } : Config).CapacityAddressable := by decide

/-- Two equal rows make a singular matrix. -/
theorem test_wf_matrix : ¬({ Config.reference with
    affRow := #v[0xF1, 0xF1, 0xC7, 0x8F, 0x1F, 0x3E, 0x7C, 0xF8] } : Config).MatrixInvertible := by decide +kernel

/-! ### The commands -/

/-- 2.1, first row. -/
theorem test_gfmul : after (exec .gfmul (scalar 0x57 0x83)) (fun t => (t.r, t.status, t.flags.done)) =
    some (0xC1, .ok, true) := by decide
/-- 2.1, `FF * FF`. -/
theorem test_gfmul_reduces : after (exec .gfmul (scalar 0xFF 0xFF)) State.r = some 0x13 := by decide

/-- 2.2, single vectors. -/
theorem test_gfinv : after (exec .gfinv (scalar 0x53 0)) State.r = some 0xCA := by decide
theorem test_gfinv_zero : after (exec .gfinv (scalar 0 0)) State.r = some 0 := by decide

/-- 2.3, single vectors. -/
theorem test_affine : after (exec .affine (scalar 0x80 0)) State.r = some 0xEC := by decide
theorem test_sbox : after (exec .sbox (scalar 0x53 0)) State.r = some 0xED := by decide

/-- 3.1, last row. -/
theorem test_theta : after (exec .theta (blocks
    #v[0xA5, 0x4D, 0xCA, 0x18, 0x25, 0x30, 0xBB, 0x1D, 0x6D, 0x13, 0x2C, 0xDE] 0 zero)) State.y =
    some #v[0xE1, 0x09, 0x8E, 0x02, 0x3F, 0x2A, 0x36, 0x90, 0xE0, 0xCA, 0xF5, 0x07] := by decide +kernel

/-- 3.2, last row. -/
theorem test_thetai : after (exec .thetai (blocks
    #v[0xA5, 0x4D, 0xCA, 0x18, 0x25, 0x30, 0xBB, 0x1D, 0x6D, 0x13, 0x2C, 0xDE] 0 zero)) State.y =
    some #v[0x99, 0x71, 0xF6, 0xE7, 0xDA, 0xCF, 0xC0, 0x66, 0x16, 0xAD, 0x92, 0x60] := by decide +kernel

/-- 4, third row. -/
theorem test_perm : after (exec .perm (blocks
    #v[0x06, 0x07, 0x04, 0x07, 0x00, 0x01, 0x14, 0x15, 0x1A, 0x19, 0x1A, 0x1B] 0 zero)) State.y =
    some #v[0x06, 0x1A, 0x1A, 0x07, 0x07, 0x1B, 0x14, 0x00, 0x04, 0x19, 0x15, 0x01] := by decide

/-- 5.2, fourth row. -/
theorem test_ksnext : after (exec .ksnext (blocks countingBlock 8 zero)) State.y =
    some #v[0x78, 0x67, 0x6C, 0x7B, 0x63, 0x69, 0x7D, 0x64, 0x61, 0x74, 0x6E, 0x6A] := by decide +kernel

/-- 5.3, second row: the named alternative parameters. -/
theorem test_ksnext_aesLike : ksNext .aesLike countingBlock 1 =
    #v[0x65, 0x2A, 0x03, 0x66, 0x2E, 0x06, 0x60, 0x29, 0x0E, 0x69, 0x23, 0x05] := by decide +kernel

/-- 6.2, first row. -/
theorem test_encblk : after (exec .encblk (blocks countingBlock 0 vectorKey)) State.y =
    some #v[0xD7, 0xA8, 0xFA, 0xF1, 0x3A, 0x8B, 0x77, 0x46, 0x6C, 0x43, 0xD8, 0xB5] := by
  rw [exec_encblk]
  change some (encBlock .reference countingBlock vectorKey) = _
  rw [encBlock_table]
  decide +kernel

/-- 7.2, second row. -/
theorem test_ctr : after (exec .ctr twoBlocks) (fun t => (t.data, t.status)) = some
    ([#v[0x75, 0x5E, 0xA6, 0x74, 0xE4, 0x93, 0xAE, 0x6E, 0x2F, 0xA6, 0x05, 0x18],
      #v[0xE9, 0x31, 0xCE, 0xB2, 0x46, 0x57, 0xBE, 0xF0, 0x63, 0xCA, 0xB2, 0xF5]], .ok) := by
  have h : after (exec .ctr twoBlocks) (fun t => (t.data, t.status)) =
      some ((twoBlocks.setData (ctrApply .reference [countingBlock, secondBlock] vectorKey vectorNonce)).data, .ok) := rfl
  rw [h, ctrApply, ctrFrom, ctrFrom, ctrFrom, encBlock_table, encBlock_table]
  decide +kernel

/-- 8, fourth row. -/
theorem test_hash : after (exec .hash twoBlocks) (fun t => (t.y, t.status)) =
    some (#v[0xBF, 0x38, 0x78, 0x61, 0xE6, 0xF0, 0x64, 0xDF, 0x18, 0x99, 0xC2, 0xF3], .ok) := by
  have h : after (exec .hash twoBlocks) (fun t => (t.y, t.status)) =
      some (dmHash .reference [countingBlock, secondBlock], .ok) := rfl
  rw [h]
  simp only [dmHash, dmStep, List.foldl, encBlock_table]
  decide +kernel

/-- 9, third row: the optional block and then the data. -/
theorem test_hmac : after (exec .hmac { twoBlocks with pfx := nonceBlock vectorNonce, pfxLen := 96 })
      (fun t => (t.y, t.status)) =
    some (#v[0x14, 0x87, 0x19, 0xC7, 0x82, 0x14, 0xA7, 0x14, 0x0E, 0x97, 0x40, 0x78], .ok) := by
  have h : after (exec .hmac { twoBlocks with pfx := nonceBlock vectorNonce, pfxLen := 96 }) (fun t => (t.y, t.status)) =
      some (hmacTag .reference [countingBlock, secondBlock] vectorKey (some (nonceBlock vectorNonce)), .ok) := rfl
  rw [h]
  simp only [hmacTag, Option.toList, List.cons_append, List.nil_append, dmHash, dmStep, List.foldl, encBlock_table]
  decide +kernel

/-- 10.1, first row. -/
theorem test_ae : after (exec .ae oneZero) (fun t => (t.data, t.y, t.status)) = some
    ([#v[0x1D, 0x14, 0x51, 0x34, 0x85, 0x99, 0x99, 0xAA, 0x60, 0xAD, 0xDE, 0x6F]],
      #v[0xA6, 0xB7, 0x5D, 0x2E, 0x61, 0xBF, 0x9B, 0x9C, 0xED, 0xD1, 0x41, 0xC3], .ok) := by
  have h : exec .ae oneZero = .next
      (((oneZero.setData (aeSeal .reference oneZero.data zero (Nonce.ofFn fun _ => 0)).1).setY
        (aeSeal .reference oneZero.data zero (Nonce.ofFn fun _ => 0)).2).finish .ok) := rfl
  have hd : oneZero.data = [zero] := by decide +kernel
  rw [h, hd]
  simp only [aeSeal, ctrApply, ctrFrom, hmacTag, Option.toList, List.cons_append, List.nil_append, dmHash, dmStep,
    List.foldl, encBlock_table]
  decide +kernel

/-- 11: the order of the checks of CTR, AE, HASH and HMAC. -/
theorem test_ctr_fails :
    after (exec .ctr { oneZero with dataLen := 100, nonceLen := 40 }) State.status = some .invalidDataLength ∧
    after (exec .ctr { oneZero with nonceLen := 40 }) State.status = some .invalidNonceLength ∧
    after (exec .ctr { oneZero with dataLen := 24672 }) State.status = some .invalidDataLength := by decide
theorem test_ae_fails : after (exec .ae { oneZero with nonceLen := 47 })
    (fun t => (t.status, t.y, t.dbuf == oneZero.dbuf, t.flags.toByte)) = some (.invalidNonceLength, zero, true, 2) := by
  decide +kernel
theorem test_hash_fails : after (exec .hash { oneZero with dataLen := 100 }) State.status = some .invalidDataLength ∧
    after (exec .hash { oneZero with dataLen := 0 }) (fun t => (t.status, t.y)) = some (.ok, zero) := by decide
theorem test_hmac_fails :
    after (exec .hmac { oneZero with dataLen := 100, keyLen := 128 }) State.status = some .invalidKeyLength ∧
    after (exec .hmac { oneZero with pfxLen := 48 }) State.status = some .invalidDataLength := by decide

/-! ### The host's side, one step each -/

/-- R96: a reserved code leaves `BUSY` and sets `ILLEGAL`. -/
theorem test_issue_reserved : after (step { State.reset with agenda := [.host (.write8 0 0x0E)] })
    (fun t => (t.cmd, t.flags.toByte)) = some (0x0E, 4) := by decide

/-- R77: a busy core drops the write and sets `ILLEGAL`. -/
theorem test_busy_write : after (step { busyWith .sbox with agenda := [.host (.write8 0x0004 7)] })
    (fun t => (t.a, t.flags.toByte)) = some (0, 5) := by decide

/-- R71: byte 3 of `NONCE` is at 0x0033. -/
theorem test_write_nonce : after (step { State.reset with agenda := [.host (.write8 0x0033 7)] })
    (fun t => (t.nonce, t.agenda)) = some (#v[0, 0, 0, 7, 0, 0], []) := by decide

/-- A word placed in the reset state runs in the next step. -/
theorem test_place : after (step (State.reset.withFetchWord 8 0x04)) (fun t => (t.r, t.flags.toByte, t.cmd)) =
    some (0x63, 2, 4) := by decide

/-! ### Witnesses: states and operands that meet the hypotheses of the statements -/

/-- What the data of `mode` is. -/
theorem witness_holds : oneZero.HoldsData [zero] ∧ twoBlocks.HoldsData [countingBlock, secondBlock] ∧
    State.reset.HoldsData [] := by decide +kernel

/-- DecodeAndEncodeAgree. -/
theorem witness_decode : decode [0x0D, 0xFF] = .ok (.ae, [0xFF]) ∧ decode [0x01] = .ok (.gfmul, []) := ⟨rfl, rfl⟩

/-- ReservedCodeStartsNothing, with the codes where the ranges meet. -/
theorem witness_reserved : State.reset.flags.busy = false ∧ isCommand 0x00 = false ∧ isCommand 0x0E = false ∧
    isCommand 0xFF = false ∧ isCommand 0x01 = true ∧ isCommand 0x0D = true := by decide

/-- IssueByWriteToCmd: each of the four clauses. -/
theorem witness_issue : State.reset.flags.busy = false ∧ 0x0D = opcode .ae ∧
    (∃ t, exec .gfmul State.reset = .next t) ∧ (∀ i, (0x0E : Byte) ≠ opcode i) ∧ (busyWith .ae).flags.busy = true :=
  ⟨rfl, rfl, ⟨_, rfl⟩, fun i => by cases i <;> decide, rfl⟩

/-- StepRunsTheIssuedCommand: both clauses. -/
theorem witness_step_runs : (busyWith .ae).flags.busy = true ∧ decode [(busyWith .ae).cmd] = .ok (.ae, []) ∧
    (busyWith .ae).agenda = [] ∧ ({ busyWith .ae with agenda := [.core] } : State).agenda = [.core] :=
  ⟨rfl, rfl, rfl, rfl⟩

/-- StepMakesTheNextMove. -/
theorem witness_idle : State.reset.flags.busy = false ∧ State.reset.agenda = [] := by decide

/-- GfMulFieldLaws (a product that is 0) and GfmulResult (each corner case). -/
theorem witness_gfmul : gfMul 0 5 = 0 ∧ gfMul 5 0 = 0 ∧ (scalar 0 0x83).a = 0 ∧ (scalar 0x57 0).b = 0 ∧
    (scalar 0x57 1).b = 1 := by decide

/-- GfInvIsTheInverse, GfInvLaws and GfinvResult. -/
theorem witness_gfinv : (0x01 : Byte) ≠ 0 ∧ gfMul 1 1 = 1 ∧ (0xFF : Byte) ≠ 0 ∧ gfMul 0xFF 0x1C = 1 ∧
    (scalar 0 0).a = 0 ∧ (scalar 1 0).a = 1 := by decide

/-- AffineResult and SboxResult. -/
theorem witness_sbox : (scalar 0 7).a = 0 ∧ (scalar 1 7).a = 1 := by decide

/-- SboxBijectiveExactlyWhenInvertible (the matrix invertible, and not) and EncBlockBijective. -/
theorem witness_invertible : Config.reference.MatrixInvertible ∧
    ¬({ Config.reference with affRow := Vector.replicate 8 0 } : Config).MatrixInvertible := by decide +kernel

/-- ThetaResult and ThetaiResult: the first and the last group of three equal bytes. -/
theorem witness_groups : (blocks (Block.const 7) 0 zero).x[0] = 7 ∧ (blocks (Block.const 7) 0 zero).x[1] = 7 ∧
    (blocks (Block.const 7) 0 zero).x[2] = 7 ∧ (blocks (Block.const 7) 0 zero).x[9] = 7 ∧
    (blocks (Block.const 7) 0 zero).x[10] = 7 ∧ (blocks (Block.const 7) 0 zero).x[11] = 7 := by decide

/-- DiffusionEquivalentFormAndLanes: two blocks that differ in the last group only. -/
theorem witness_one_group : countingBlock ≠ countingBlock.set 11 0 ∧
    countingBlock[0] = (countingBlock.set 11 0)[0] ∧ countingBlock[1] = (countingBlock.set 11 0)[1] ∧
    countingBlock[2] = (countingBlock.set 11 0)[2] := by decide

/-- RoundKeysDifferByRound: both clauses. -/
theorem witness_rounds : rc 1 ≠ rc 10 ∧ (∃ j : Fin 3, Config.aesLike.ksRcl[j] = true) ∧
    (∃ j : Fin 3, Config.reference.ksRcl[j] = true) := by decide +kernel

/-- CounterIncrement: every later byte is `FF` (first and last counter byte), and some later byte is not. -/
theorem witness_carry : (∀ (j : Nat) (hj : j < 12), 6 < j → (Block.const 0xFF)[j] = 0xFF) ∧
    (∀ (j : Nat) (hj : j < 12), 11 < j → zero[j] = 0xFF) ∧
    (∃ (j : Nat) (hj : j < 12), 6 < j ∧ zero[j] ≠ 0xFF) ∧ (∃ (j : Nat) (hj : j < 12), 10 < j ∧ zero[j] ≠ 0xFF) :=
  ⟨by decide, by decide, ⟨7, by decide⟩, ⟨11, by decide⟩⟩

/-- KeystreamOfEachBlock: the last block of the longest data there could be. -/
theorem witness_last_block : 44739241 < ({ State.reset with dataLen := 0xFFFFFFFF } : State).dataBlocks := by decide

/-- KeystreamOfEachBlock: a block of some data. -/
theorem witness_block : 1 < [countingBlock, secondBlock].length := by decide

/-- CtrCommand and AeCommand: each clause; the length one block, the whole buffer, one block more, none, not a multiple. -/
theorem witness_ctr : ¬State.reset.CtrLengthOk ∧ ¬({ oneZero with dataLen := 24672 } : State).CtrLengthOk ∧
    ¬({ oneZero with dataLen := 97 } : State).CtrLengthOk ∧ ({ oneZero with dataLen := 24576 } : State).CtrLengthOk ∧
    ({ oneZero with nonceLen := 47 } : State).CtrLengthOk ∧ ({ oneZero with nonceLen := 47 } : State).nonceLen ≠ 48 ∧
    oneZero.CtrLengthOk ∧ oneZero.nonceLen = 48 := by decide

/-- CtrTwiceRestoresTheData, AeTagIsRecomputedByHmac, WrittenDataLetsEveryCommandComplete. -/
theorem witness_written : oneZero.CtrLengthOk ∧ oneZero.nonceLen = 48 ∧ oneZero.DataWritten ∧ oneZero.dbuf.wf ∧
    State.reset.DataWritten := by decide +kernel

/-- HashCommand: each clause. -/
theorem witness_hash : ¬({ oneZero with dataLen := 24672 } : State).HashLengthOk ∧
    ¬({ oneZero with dataLen := 95 } : State).HashLengthOk ∧ oneZero.HashLengthOk ∧ State.reset.HashLengthOk ∧
    State.reset.dataLen = 0 := by decide

/-- HmacCommand: each clause. -/
theorem witness_hmac : State.reset.keyLen ≠ 96 ∧ oneZero.keyLen = 96 ∧
    ¬(({ oneZero with pfxLen := 95 } : State).HashLengthOk ∧ ({ oneZero with pfxLen := 95 } : State).PfxLengthOk) ∧
    ¬(({ oneZero with dataLen := 97 } : State).HashLengthOk ∧ ({ oneZero with dataLen := 97 } : State).PfxLengthOk) ∧
    oneZero.HashLengthOk ∧ oneZero.pfxLen = 0 ∧ ({ oneZero with pfxLen := 96 } : State).pfxLen = 96 := by decide

/-- CommandsWriteOnlyTheirResults and CommandEndsIdleAndDone: one command of each shape. -/
theorem witness_exec : (∃ t, exec .sbox oneZero = .next t) ∧ (∃ t, exec .perm oneZero = .next t) ∧
    (∃ t, exec .ctr oneZero = .next t) ∧ (∃ t, exec .hash oneZero = .next t) ∧
    (∃ t, exec .hmac oneZero = .next t) ∧ (∃ t, exec .ae oneZero = .next t) ∧
    possibleStatuses .ksnext = [.ok] :=
  ⟨⟨_, rfl⟩, ⟨_, rfl⟩, ⟨_, rfl⟩, ⟨_, rfl⟩, ⟨_, rfl⟩, ⟨_, rfl⟩, rfl⟩

/-- ResultsDependOnlyOnReads: states that differ, and agree in what the command reads. -/
theorem witness_reads : oneZero.config = ({ oneZero with pfx := Block.const 1, x := Block.const 1 } : State).config ∧
    State.SameReads .hmac oneZero { oneZero with pfx := Block.const 1, x := Block.const 1 } ∧
    State.SameReads .gfmul oneZero { oneZero with keyLen := 0 } ∧
    State.SameReads .ae oneZero { oneZero with dbuf := Memory.write oneZero.dbuf 12 5, keyLen := 0 } ∧
    oneZero ≠ { oneZero with pfx := Block.const 1, x := Block.const 1 } := by decide +kernel

/-- FailedCommandChangesOnlyStatus. -/
theorem witness_failed : ∃ t, exec .ctr State.reset = .next t ∧ t.status ≠ .ok := ⟨_, rfl, by decide⟩

/-- UnwrittenDataStopsAModeCommand: the first data byte unwritten, and the last one. -/
theorem witness_unwritten :
    State.ChecksPass { oneZero with dbuf := [] } .hash ∧ possibleStatuses .hash ≠ [.ok] ∧
    0 < ({ oneZero with dbuf := [] } : State).dataBytes ∧
    State.ChecksPass { oneZero with dbuf := oneZero.dbuf.take 11 } .ae ∧
    11 < ({ oneZero with dbuf := oneZero.dbuf.take 11 } : State).dataBytes ∧
    Memory.read (oneZero.dbuf.take 11) 11 = none ∧
    (∀ z < 11, (Memory.read (oneZero.dbuf.take 11) z).isSome = true) := by decide +kernel

/-- AccessByTheAddressMap: an idle core with the first and the last byte of the buffer written. -/
theorem witness_buffer_ends :
    ({ State.reset with dbuf := [(0, 1), (3071, 2)] } : State).flags.busy = false ∧
    Memory.read [(0, 1), (3071, 2)] 0 = some 1 ∧ Memory.read [(0, 1), (3071, 2)] 3071 = some 2 ∧
    3071 < State.reset.config.dbufBytes ∧ 0x1000 + 3071 < 2 ^ 32 := by decide

/-- HostReadOfAnUnwrittenByteStops: the first and the last byte of the buffer. -/
theorem witness_unwritten_ends : State.reset.flags.busy = false ∧ 0 < State.reset.config.dbufBytes ∧
    3071 < State.reset.config.dbufBytes ∧ 0x1000 + 3071 < 2 ^ 32 ∧ State.reset.dbuf.read 0 = none ∧
    State.reset.dbuf.read 3071 = none := by decide

/-- ForbiddenAccessOnlySetsIllegal: read-only and reserved offsets, a byte at the own offset of each 32-bit register and
inside one, the first offset past each region, and 32-bit accesses elsewhere. -/
theorem witness_forbidden : ReadOnlyOffset 0x0001 ∧ ReadOnlyOffset 0x006B ∧ ¬ByteOffset 3072 0x0007 ∧
    ¬ByteOffset 3072 0x0008 ∧ ¬ByteOffset 3072 0x000C ∧ ¬ByteOffset 3072 0x0010 ∧ ¬ByteOffset 3072 0x0014 ∧
    ¬ByteOffset 3072 0x0009 ∧ ¬ByteOffset 3072 0x002C ∧ ¬ByteOffset 3072 0x0036 ∧ ¬ByteOffset 3072 0x006C ∧
    ¬ByteOffset 3072 0x0FFF ∧ ¬ByteOffset 3072 0x1C00 ∧ ¬WordOffset 0x0009 ∧ ¬WordOffset 0x1000 ∧
    State.reset.flags.busy = false := by
  refine ⟨?_, ?_, ?_, ?_, ?_, ?_, ?_, ?_, ?_, ?_, ?_, ?_, ?_, ?_, ?_, ?_⟩ <;> decide

/-- HostReadReturnsTheLastWrite: the first and the last read-write location, and another that reads. -/
theorem witness_read_back : State.reset.flags.busy = false ∧ ByteOffset State.reset.config.dbufBytes 0x0003 ∧
    ByteOffset State.reset.config.dbufBytes 0x1BFF ∧ ¬ReadOnlyOffset 0x0003 ∧ ¬ReadOnlyOffset 0x1BFF ∧
    (0x0003 : Word) ≠ 0x0000 ∧ (0x0004 : Word) ≠ 0x0003 ∧ WordOffset 0x0008 ∧ WordOffset 0x0014 ∧
    State.reset.access (.read8 0x0004) = .next (State.reset.reply (.byte 0)) :=
  ⟨by decide, by decide, by decide, by decide, by decide, by decide, by decide, by decide, by decide, rfl⟩

/-- BusyWindowDoesNotDisturbTheCommand: both clauses. -/
theorem witness_busy : (busyWith .sbox).flags.busy = true ∧ decodeByte (busyWith .sbox).cmd = .ok .sbox ∧
    (∃ t, exec .sbox { busyWith .sbox with agenda := [] } = .next t) ∧ (0x0000 : Word) ≠ 0x0001 :=
  ⟨rfl, rfl, ⟨_, rfl⟩, by decide⟩

/-- StatusChangesOnlyAtCompletion: a completion and a reset that change `STATUS`. -/
theorem witness_status :
    after (step { busyWith .ctr with nonceLen := 0 }) State.status = some .invalidNonceLength ∧
    (busyWith .ctr).status = .ok ∧
    after (step { State.reset with status := .invalidKeyLength, agenda := [.reset] }) State.status = some .ok := by
  decide

/-- OnlyResetClearsIllegal: both clauses. -/
theorem witness_illegal : ({ State.reset with flags := State.reset.flags.marked } : State).flags.illegal = true ∧
    (∃ t, step { State.reset with flags := State.reset.flags.marked } = .next t) ∧
    (∀ s', ({ State.reset with flags := State.reset.flags.marked } : State).popEvent ≠ (.reset, s')) ∧
    (∃ s', ({ State.reset with agenda := [.reset] } : State).popEvent = (.reset, s')) ∧
    (∃ t, step { State.reset with agenda := [.reset] } = .next t) :=
  ⟨rfl, ⟨_, rfl⟩, fun _ h => (by cases h), ⟨_, rfl⟩, ⟨_, rfl⟩⟩

/-- ResetFromAnyState: a busy core. -/
theorem witness_reset : ({ busyWith .ae with agenda := [.reset, .core] } : State).agenda = [.reset, .core] := rfl

/-- ParametersNeverChange and StepKeepsTheInvariant: the busy core satisfies the invariant and completes. -/
theorem witness_invariant : (busyWith .ae).Inv ∧ ∃ t, step (busyWith .ae) = .next t :=
  ⟨by decide +kernel, ⟨_, rfl⟩⟩

end Sys2Proof.Tests
end

section
/-! The obligations on the reset values and on `STATUS`: what can change it, from the case lemmas of an access and a step. -/

namespace Sys2Proof.Machine

/-! ### What the host's moves leave of `STATUS` -/

@[simp] theorem State.writeWordLoc_status (s : State) (w : Word) (l : WordLoc) :
    (s.writeWordLoc w l).status = s.status := by
  cases l <;> rfl

@[simp] theorem State.forbiddenRead8_status (s : State) : s.forbiddenRead8.status = s.status := rfl

@[simp] theorem State.forbiddenRead32_status (s : State) : s.forbiddenRead32.status = s.status := rfl

/-- No host access writes `STATUS`, legal or forbidden (R26). -/
theorem State.access_status {s t : State} {acc : Access} (h : s.access acc = .next t) : t.status = s.status := by
  obtain ⟨_, _, _, _, _, ha⟩ | ⟨_, _, _, _, _, _, ha⟩ | ⟨_, _, _, _, ha⟩ | ⟨_, _, _, _, _, ha⟩ | ⟨_, _, _, _, _, ha⟩ |
    ⟨_, _, _, ha⟩ | ⟨_, _, _, ha⟩ | ⟨_, _, _, _, ha⟩ | ⟨_, _, _, _, ha⟩ := s.access_cases acc <;> rw [ha] at h
  case inl => cases h
  all_goals obtain rfl := Host.Outcome.next.inj h; simp

/-- Taking the next move off the agenda leaves `STATUS`. -/
theorem State.popEvent_status {s s' : State} {e : Event} (h : s.popEvent = (e, s')) : s'.status = s.status := by
  rw [State.popEvent_state h, State.setAgenda_status]

/-- The moves of a step that can write `STATUS`: the completion of the command in progress, and the reset (R26). -/
theorem step_changes_status {s t : State} (h : step s = .next t) (hne : t.status ≠ s.status) :
    (∃ s' i, s.popEvent = (.core, s') ∧ s'.flags.busy = true ∧ decodeByte s'.cmd = .ok i ∧ exec i s' = .next t) ∨
    (∃ s', s.popEvent = (.reset, s') ∧ t.status = .ok) := by
  obtain ⟨acc, s', hp, hs⟩ | ⟨s', hp, hs⟩ | ⟨s', i, hp, hb, hd, hs⟩ | ⟨s', hp, -, hs⟩ | ⟨s', -, -, -, hs⟩ :=
    step_cases s <;> rw [hs] at h
  · exact absurd ((State.access_status h).trans (State.popEvent_status hp)) hne
  · obtain rfl := Host.Outcome.next.inj h
    exact .inr ⟨s', hp, rfl⟩
  · exact .inl ⟨s', i, hp, hb, hd, h⟩
  · obtain rfl := Host.Outcome.next.inj h
    exact absurd (State.popEvent_status hp) hne
  · cases h

/-- Bits 7 to 2 of `STATUS` read 0 (R26). -/
theorem Status.code_high_bits (st : Status) : st.code &&& 0xFC = 0 := by
  cases st <;> rfl

/-! ### The obligations -/

/-- Settles O52: `step_cases` leaves the completion and the reset, since the other moves keep `STATUS`. -/
theorem statusChangesOnlyAtCompletion : Obligations.StatusChangesOnlyAtCompletion :=
  ⟨fun _ _ => step_changes_status, State.issue_status, rfl, rfl, rfl, rfl, Status.code_high_bits⟩

/-- Settles O54: the fields of `State.reset`; no row of the opcode map has the code 0. -/
theorem resetControlValues : Obligations.ResetControlValues :=
  ⟨rfl, rfl, rfl, rfl, rfl, rfl, rfl, rfl⟩

end Sys2Proof.Machine
end

section
/-! The obligations on the encoding: a code decodes to a command exactly when it is its `OPCODE`, and a write of
any other code to `CMD` sets `ILLEGAL` alone. -/

namespace Sys2Proof

/-! ### The opcode map -/

/-- In match/mask form every row has `match = OPCODE` and `mask = 0xFF` (R92). -/
theorem opcodeTable_row : ∀ row ∈ opcodeTable, row.pattern = opcode row.instr ∧ row.mask = 0xFF := by decide

/-- The rows stand in the order of their codes, which begin at `0x01` (R92). -/
theorem opcode_opcodeTable_get :
    ∀ k : Fin opcodeTable.length, opcode (opcodeTable.get k).instr = BitVec.ofNat 8 (k + 1) := by decide

/-- What the search through rows of match/mask form finds is the command of a row that matches. -/
theorem decodeIn_ok {c : Byte} {i : Instr} {rows : List OpcodeRow} (h : decodeIn c rows = .ok i) :
    ∃ row ∈ rows, c &&& row.mask = row.pattern ∧ row.instr = i := by
  induction rows with
  | nil => cases h
  | cons row rows ih =>
    rw [decodeIn] at h
    split at h
    next hmatch => exact ⟨row, List.mem_cons_self, hmatch, Except.ok.inj h⟩
    next =>
      obtain ⟨row', hmem, hrow⟩ := ih h
      exact ⟨row', List.mem_cons_of_mem _ hmem, hrow⟩

/-! ### The decoder -/

/-- A code byte decodes to a command exactly when it is the command's `OPCODE` (R92): the masks keep every bit. -/
theorem decodeByte_eq_ok_iff {c : Byte} {i : Instr} : decodeByte c = .ok i ↔ c = opcode i := by
  constructor
  · intro h
    obtain ⟨row, hmem, hmatch, rfl⟩ := decodeIn_ok h
    obtain ⟨hpattern, hmask⟩ := opcodeTable_row row hmem
    calc c = c &&& BitVec.allOnes 8 := BitVec.and_allOnes.symm
      _ = c &&& row.mask := by rw [hmask]; rfl
      _ = opcode row.instr := hmatch.trans hpattern
  · rintro rfl
    exact decodeByte_opcode i

theorem decode_cons_eq_ok_iff {c : Byte} {tail rest : List Byte} {i : Instr} :
    decode (c :: tail) = .ok (i, rest) ↔ decodeByte c = .ok i ∧ tail = rest := by
  cases h : decodeByte c <;> simp [decode, h]

/-- Decoding and encoding agree (R90): bytes decode to a command and a rest exactly when they are the encoding of the
command followed by that rest. -/
theorem decode_eq_ok_iff {bytes rest : List Byte} {i : Instr} :
    decode bytes = .ok (i, rest) ↔ bytes = encode i ++ rest := by
  cases bytes with
  | nil => simp [decode, encode]
  | cons c tail => simp [decode_cons_eq_ok_iff, decodeByte_eq_ok_iff, encode]

theorem decodeTableWord_opcode (i : Instr) : decodeTableWord 8 (opcode i).toNat = some i := by
  have h : decode [tableByte 8 (opcode i).toNat] = .ok (i, []) := by
    rw [tableByte_opcode, decode_eq_ok_iff, encode, List.append_nil]
  rw [decodeTableWord, h]

/-! ### The reserved codes -/

/-- The thirteen codes are `0x01` to `0x0D` (R96). -/
theorem isCommand_iff_range (c : Byte) : isCommand c = true ↔ 0x01 ≤ c.toNat ∧ c.toNat ≤ 0x0D := by
  constructor
  · intro h
    obtain ⟨i, hi⟩ := decodeByte_of_isCommand h
    obtain rfl := decodeByte_eq_ok_iff.1 hi
    cases i <;> decide
  · rintro ⟨hlo, hhi⟩
    have hrow : c.toNat - 1 < opcodeTable.length := by
      simp only [opcodeTable, List.length_cons, List.length_nil]
      omega
    have hcode := opcode_opcodeTable_get ⟨c.toNat - 1, hrow⟩
    rw [Nat.sub_add_cancel hlo, BitVec.ofNat_toNat, BitVec.setWidth_eq] at hcode
    rw [← hcode]
    exact isCommand_opcode _

/-- The reserved codes are `0x00` and `0x0E` to `0xFF` (R96). -/
theorem isCommand_eq_false_iff (c : Byte) : isCommand c = false ↔ c = 0x00 ∨ 0x0E ≤ c.toNat := by
  have hzero : c = 0x00 ↔ c.toNat = 0 := BitVec.toNat_inj.symm
  rw [← Bool.not_eq_true, isCommand_iff_range, hzero]
  omega

namespace Machine

/-- The issue of a reserved code takes the code into `CMD` and sets `ILLEGAL` (R91, R96). -/
theorem State.issue_reserved (s : State) {c : Byte} (h : isCommand c = false) :
    s.issue c = { s with cmd := c, flags := s.flags.marked } := by
  cases hd : decodeByte c with
  | ok i => simp [(isCommand_iff c).2 ⟨i, hd⟩] at h
  | error e => simp only [State.issue, hd]

/-- A host write to `CMD` of an idle core issues the code written (R91). -/
theorem State.write_cmd_idle {s : State} (c : Byte) (hb : s.flags.busy = false) :
    s.access (.write8 0x0000 c) = .next (s.issue c) :=
  State.write8_idle (l := .cmd) c hb rfl

end Machine

/-! ### The obligations -/

/-- Settles O1: the length by definition, both directions of the round trip by `decode_eq_ok_iff`. -/
theorem decodeAndEncodeAgree : Obligations.DecodeAndEncodeAgree :=
  ⟨fun _ _ => ⟨rfl, decode_eq_ok_iff.2 rfl⟩, fun _ _ _ => decode_eq_ok_iff.1⟩

/-- Settles O2: each written-out word is the `OPCODE` of its command. -/
theorem opcodeWordsDecode : Obligations.OpcodeWordsDecode :=
  ⟨decodeTableWord_opcode .gfmul, decodeTableWord_opcode .gfinv, decodeTableWord_opcode .affine,
    decodeTableWord_opcode .sbox, decodeTableWord_opcode .theta, decodeTableWord_opcode .thetai,
    decodeTableWord_opcode .perm, decodeTableWord_opcode .ksnext, decodeTableWord_opcode .encblk,
    decodeTableWord_opcode .ctr, decodeTableWord_opcode .hash, decodeTableWord_opcode .hmac,
    decodeTableWord_opcode .ae, opcodeTable_row⟩

/-- Settles O3: the range of the thirteen codes, and the write to `CMD` as the issue of a reserved code. -/
theorem reservedCodeStartsNothing : Obligations.ReservedCodeStartsNothing := fun s c =>
  ⟨isCommand_eq_false_iff c, fun hb hc =>
    (Machine.State.write_cmd_idle c hb).trans (congrArg Host.Outcome.next (s.issue_reserved hc))⟩

end Sys2Proof
end

section
/-! The obligations on the field arithmetic. A word stands for the polynomial over GF(2) of its bits: shifts multiply by
powers of `X`, XOR adds, so the two loops of R111 compute the product and its remainder. -/

namespace Sys2Proof

open Polynomial

/-! ### Words as polynomials over GF(2) -/

/-- The polynomial over GF(2) that a word stands for, as `bytePolynomial` for a byte (R110). -/
noncomputable def wordPolynomial {w : Nat} (p : BitVec w) : (ZMod 2)[X] :=
  ∑ i ∈ Finset.range w, if p.getLsbD i then X ^ i else 0

theorem bytePolynomial_eq_wordPolynomial (v : Byte) : bytePolynomial v = wordPolynomial v := rfl

@[simp] theorem wordPolynomial_coeff {w : Nat} (p : BitVec w) (k : Nat) :
    (wordPolynomial p).coeff k = if p.getLsbD k then 1 else 0 := by
  have hterm : ∀ i, (if p.getLsbD i then (X ^ i : (ZMod 2)[X]) else 0).coeff k =
      if k = i then (if p.getLsbD i then 1 else 0) else 0 := by
    intro i
    split <;> simp [coeff_X_pow]
  rw [wordPolynomial, finsetSum_coeff, Finset.sum_congr rfl fun i _ => hterm i, Finset.sum_ite_eq]
  split
  next => rfl
  next hk => simp [BitVec.getLsbD_of_ge p k (by simpa using hk)]

theorem wordPolynomial_degree_lt {w n : Nat} {p : BitVec w} (h : ∀ k, n ≤ k → p.getLsbD k = false) :
    (wordPolynomial p).degree < n := by
  rw [degree_lt_iff_coeff_zero]
  intro k hk
  simp [h k hk]

theorem wordPolynomial_injective {w : Nat} : Function.Injective (wordPolynomial (w := w)) := by
  intro p q h
  refine BitVec.eq_of_getLsbD_eq fun i _ => ?_
  have hi := congrArg (coeff · i) h
  cases hp : p.getLsbD i <;> cases hq : q.getLsbD i <;> simp [hp, hq] at hi ⊢

@[simp] theorem wordPolynomial_zero (w : Nat) : wordPolynomial 0#w = 0 := by
  ext k
  simp

theorem wordPolynomial_xor {w : Nat} (p q : BitVec w) :
    wordPolynomial (p ^^^ q) = wordPolynomial p + wordPolynomial q := by
  ext k
  cases hp : p.getLsbD k <;> cases hq : q.getLsbD k <;> simp [hp, hq, CharTwo.add_self_eq_zero]

/-- A shift by `i` multiplies by `X ^ i` when the wider word holds every shifted bit. -/
theorem wordPolynomial_shiftLeft {w v i : Nat} (p : BitVec w) (h : w + i ≤ v) :
    wordPolynomial (p.setWidth v <<< i) = wordPolynomial p * X ^ i := by
  ext k
  rw [coeff_mul_X_pow', wordPolynomial_coeff, wordPolynomial_coeff, BitVec.getLsbD_shiftLeft, BitVec.getLsbD_setWidth]
  by_cases hik : i ≤ k
  · by_cases hkv : k < v
    · simp [hik, hkv, show k - i < v by omega]
    · simp [hik, hkv, BitVec.getLsbD_of_ge p (k - i) (by omega)]
  · simp [hik, show k < i by omega]

/-- Leaving out bits that are 0 leaves the polynomial. -/
theorem wordPolynomial_setWidth {w n : Nat} {p : BitVec w} (h : ∀ k, n ≤ k → p.getLsbD k = false) :
    wordPolynomial (p.setWidth n) = wordPolynomial p := by
  ext k
  by_cases hk : k < n
  · simp [hk]
  · simp [hk, h k (by omega)]

/-! ### The field modulus -/

theorem wordPolynomial_modulus : wordPolynomial 0x11B#9 = fieldModulus := by
  simp [wordPolynomial, fieldModulus, Finset.sum_range_succ]
  ring

theorem fieldModulus_degree : fieldModulus.degree = 8 := by
  unfold fieldModulus
  compute_degree!

theorem fieldModulus_monic : fieldModulus.Monic := by
  unfold fieldModulus
  monicity!

/-- A byte's polynomial is its own remainder. -/
theorem bytePolynomial_modByMonic (v : Byte) : bytePolynomial v %ₘ fieldModulus = bytePolynomial v := by
  rw [modByMonic_eq_self_iff fieldModulus_monic, fieldModulus_degree]
  exact wordPolynomial_degree_lt v.getLsbD_of_ge

/-! ### The first loop of R111: the product -/

/-- One step of the first loop: bit `i` of `b` adds `a` shifted by `i`. -/
def addShifted (a b : Byte) (p : BitVec 15) (i : Nat) : BitVec 15 :=
  if b.getLsbD i then p ^^^ (a.setWidth 15 <<< i) else p

theorem gfProduct_eq_foldl (a b : Byte) : gfProduct a b = (List.range 8).foldl (addShifted a b) 0 := rfl

theorem wordPolynomial_addShifted (a b : Byte) (p : BitVec 15) {i : Nat} (hi : i < 8) :
    wordPolynomial (addShifted a b p i) =
      wordPolynomial p + bytePolynomial a * (if b.getLsbD i then X ^ i else 0) := by
  unfold addShifted
  split
  · rw [wordPolynomial_xor, wordPolynomial_shiftLeft a (by omega), bytePolynomial_eq_wordPolynomial]
  · rw [mul_zero, add_zero]

/-- After `n` steps the loop holds the product with the `n` low bits of `b`. -/
theorem wordPolynomial_foldl_addShifted (a b : Byte) {n : Nat} (hn : n ≤ 8) :
    wordPolynomial ((List.range n).foldl (addShifted a b) 0) =
      bytePolynomial a * ∑ i ∈ Finset.range n, if b.getLsbD i then X ^ i else 0 := by
  induction n with
  | zero => simp
  | succ n ih =>
    rw [List.range_succ, List.foldl_concat, wordPolynomial_addShifted a b _ hn, ih (by omega), Finset.sum_range_succ,
      mul_add]

theorem wordPolynomial_gfProduct (a b : Byte) :
    wordPolynomial (gfProduct a b) = bytePolynomial a * bytePolynomial b := by
  rw [gfProduct_eq_foldl, wordPolynomial_foldl_addShifted a b le_rfl, bytePolynomial.eq_def b]

/-! ### The second loop of R111: the remainder -/

/-- One step of the second loop: degree `8 + n` is cleared with the modulus shifted by `n`. -/
def clearDegree (p : BitVec 15) (n : Nat) : BitVec 15 :=
  if p.getLsbD (8 + n) then p ^^^ (0x11B#15 <<< n) else p

/-- The last `n` steps of the second loop, which clear the degrees `8 + n - 1` down to 8. -/
def clearDegrees : Nat → BitVec 15 → BitVec 15
  | 0, p => p
  | n + 1, p => clearDegrees n (clearDegree p n)

theorem gfReduce_eq_clearDegrees (p : BitVec 15) : gfReduce p = clearDegrees 7 p := rfl

/-- The shifted modulus has degree `8 + n`. -/
theorem modulus_shiftLeft_getLsbD {n k : Nat} (hn : n < 7) (hk : 8 + n ≤ k) :
    (0x11B#15 <<< n).getLsbD k = decide (k = 8 + n) := by
  obtain rfl | hlt := hk.eq_or_lt
  · simp [show 8 + n < 15 by omega]
  · have hbit : (0x11B#15).getLsbD (k - n) = false := Nat.testBit_lt_two_pow
      (Nat.lt_of_lt_of_le (by decide : 0x11B < 2 ^ 9) (Nat.pow_le_pow_right (by decide) (by omega)))
    simp [hbit, hlt.ne']

theorem clearDegree_getLsbD {n : Nat} {p : BitVec 15} (hn : n < 7) (h : ∀ k, 8 + (n + 1) ≤ k → p.getLsbD k = false)
    (k : Nat) (hk : 8 + n ≤ k) : (clearDegree p n).getLsbD k = false := by
  obtain rfl | hlt := hk.eq_or_lt
  · unfold clearDegree
    split
    next hset => simp [BitVec.getLsbD_xor, modulus_shiftLeft_getLsbD hn le_rfl, hset, -BitVec.getLsbD_shiftLeft]
    next hclear => simpa using hclear
  · unfold clearDegree
    split
    · simp [BitVec.getLsbD_xor, modulus_shiftLeft_getLsbD hn hk, h k hlt, hlt.ne', -BitVec.getLsbD_shiftLeft]
    · exact h k hlt

theorem clearDegree_modByMonic {n : Nat} (p : BitVec 15) (hn : n < 7) :
    wordPolynomial (clearDegree p n) %ₘ fieldModulus = wordPolynomial p %ₘ fieldModulus := by
  have hshift : wordPolynomial (0x11B#15 <<< n) = fieldModulus * X ^ n := by
    rw [← wordPolynomial_modulus]
    exact wordPolynomial_shiftLeft 0x11B#9 (by omega)
  unfold clearDegree
  split
  · rw [wordPolynomial_xor, hshift, add_modByMonic, self_mul_modByMonic fieldModulus_monic, add_zero]
  · rfl

/-- The second loop leaves no degree above 7, and it keeps the remainder. -/
theorem clearDegrees_spec {n : Nat} (p : BitVec 15) (hn : n ≤ 7) (h : ∀ k, 8 + n ≤ k → p.getLsbD k = false) :
    (∀ k, 8 ≤ k → (clearDegrees n p).getLsbD k = false) ∧
      wordPolynomial (clearDegrees n p) %ₘ fieldModulus = wordPolynomial p %ₘ fieldModulus := by
  induction n generalizing p with
  | zero => exact ⟨h, rfl⟩
  | succ n ih =>
    obtain ⟨hlow, hrem⟩ := ih (clearDegree p n) (by omega) (clearDegree_getLsbD hn h)
    exact ⟨hlow, hrem.trans (clearDegree_modByMonic p hn)⟩

theorem gfReduce_spec (p : BitVec 15) :
    (∀ k, 8 ≤ k → (gfReduce p).getLsbD k = false) ∧
      wordPolynomial (gfReduce p) %ₘ fieldModulus = wordPolynomial p %ₘ fieldModulus :=
  clearDegrees_spec p le_rfl p.getLsbD_of_ge

/-! ### Multiplication of bytes -/

theorem bytePolynomial_injective : Function.Injective bytePolynomial := wordPolynomial_injective

@[simp] theorem bytePolynomial_zero : bytePolynomial 0#8 = 0 := wordPolynomial_zero 8

@[simp] theorem bytePolynomial_one : bytePolynomial 1#8 = 1 := by
  simp [bytePolynomial]

theorem bytePolynomial_xor (a b : Byte) : bytePolynomial (a ^^^ b) = bytePolynomial a + bytePolynomial b :=
  wordPolynomial_xor a b

/-- `gf_mul` is the remainder of the product (R110): the first loop computes the product, the second its remainder. -/
theorem bytePolynomial_gfMul (a b : Byte) :
    bytePolynomial (gfMul a b) = (bytePolynomial a * bytePolynomial b) %ₘ fieldModulus := by
  obtain ⟨hlow, hrem⟩ := gfReduce_spec (gfProduct a b)
  have hbyte : bytePolynomial (gfMul a b) = wordPolynomial (gfReduce (gfProduct a b)) := wordPolynomial_setWidth hlow
  calc bytePolynomial (gfMul a b) = bytePolynomial (gfMul a b) %ₘ fieldModulus := (bytePolynomial_modByMonic _).symm
    _ = wordPolynomial (gfProduct a b) %ₘ fieldModulus := by rw [hbyte, hrem]
    _ = (bytePolynomial a * bytePolynomial b) %ₘ fieldModulus := by rw [wordPolynomial_gfProduct]

@[simp] theorem gfMul_zero_left (b : Byte) : gfMul 0#8 b = 0#8 :=
  bytePolynomial_injective (by simp [bytePolynomial_gfMul])

@[simp] theorem gfMul_zero_right (a : Byte) : gfMul a 0#8 = 0#8 :=
  bytePolynomial_injective (by simp [bytePolynomial_gfMul])

@[simp] theorem gfMul_one_right (a : Byte) : gfMul a 1#8 = a :=
  bytePolynomial_injective (by simp [bytePolynomial_gfMul, bytePolynomial_modByMonic])

/-! ### The inverse of 0 and 1 -/

@[simp] theorem gfInv_zero : gfInv 0#8 = 0#8 := rfl

@[simp] theorem gfInv_one : gfInv 1#8 = 1#8 := by decide

/-! ### The obligations -/

/-- Settles O8: XOR adds coefficients in GF(2), and the two loops of R111 compute the remainder of the product. -/
theorem gfMulIsThePolynomialProduct : Obligations.GfMulIsThePolynomialProduct := fun a b =>
  ⟨BitVec.xor_self, bytePolynomial_xor a b, bytePolynomial_gfMul a b⟩

/-- Settles O10: the meaning of GFMUL, and the products with 0 and 1. -/
theorem gfmulResult : Obligations.GfmulResult := by
  intro s
  refine ⟨Machine.exec_gfmul s, ?_, ?_⟩
  · rintro (h | h) <;> simp [h]
  · intro h
    simp [h]

/-- Settles O13: the meaning of GFINV, and the inverses of 0 and 1. -/
theorem gfinvResult : Obligations.GfinvResult := by
  intro s
  refine ⟨Machine.exec_gfinv s, ?_, ?_⟩
  · intro h
    simp [h]
  · intro h
    simp [h]

end Sys2Proof
end

section
/-! The obligations on the affine map and the S-box: each output bit is the parity of the input bits its row selects, XOR a
bit of the constant. -/

namespace Sys2Proof

/-! ### The bits of the affine map -/

theorem parity_and_eq_foldl (m v : Byte) :
    parity (m &&& v) = (List.finRange 8).foldl (fun p j => p ^^ (m.getLsbD j && v.getLsbD j)) false := by
  simp [parity, List.finRange_succ]

theorem gf2Linear_getLsbD (rows : Vector Byte 8) (v : Byte) (i : Fin 8) :
    (gf2Linear rows v).getLsbD i = parity (rows[i] &&& v) :=
  byteOfBits_getLsbD _ i

theorem affine_getLsbD (c : Config) (v : Byte) (i : Fin 8) :
    (affine c v).getLsbD i = (parity (c.affRow[i] &&& v) ^^ c.affC.getLsbD i) := by
  rw [affine, BitVec.getLsbD_xor, gf2Linear_getLsbD]

/-- Row `i` of the reference matrix selects bit `i` and the bits 4 to 7 places above it, cyclically (R121). `parity` takes
them from bit 0 upwards, so row by row the two sides differ by the order of the same five bits. -/
theorem parity_reference_row (v : Byte) (i : Fin 8) : parity (Config.reference.affRow[i] &&& v) =
    (v.getLsbD i ^^ v.getLsbD ((i + 4) % 8) ^^ v.getLsbD ((i + 5) % 8) ^^ v.getLsbD ((i + 6) % 8) ^^
      v.getLsbD ((i + 7) % 8)) := by
  fin_cases i <;> simp [parity, Config.reference, Bool.xor_comm, Bool.xor_left_comm]

/-! ### The affine map at 0, and the S-box on a block -/

/-- An additive map sends 0 to 0. -/
@[simp] theorem gf2Linear_zero (rows : Vector Byte 8) : gf2Linear rows 0#8 = 0#8 := by
  simpa using gf2Linear_xor rows 0#8 0#8

@[simp] theorem affine_zero (c : Config) : affine c 0#8 = c.affC := by
  simp [affine]

@[simp] theorem sboxBlock_getElem (c : Config) (x : Block) (i : Nat) (h : i < 12) :
    (sboxBlock c x)[i] = sbox c x[i] :=
  Block.ofFn_getElem _ i h

/-! ### The obligations -/

/-- Settles O14: the parity of a row's bits, written as the fold of R120 and, for the reference rows, as in R121. -/
theorem affineOutputBits : Obligations.AffineOutputBits := by
  refine ⟨fun c v i => ?_, fun v i hi => ?_, rfl, rfl⟩
  · rw [affine_getLsbD, parity_and_eq_foldl]
  · have hbit := affine_getLsbD .reference v ⟨i, hi⟩
    rwa [parity_reference_row] at hbit

/-- Settles O15: the meaning of AFFINE, and the affine map at 0. -/
theorem affineResult : Obligations.AffineResult := by
  intro s
  refine ⟨Machine.exec_affine s, ?_⟩
  intro h
  simp [h]

/-- Settles O17: the meaning of SBOX, the affine map at the inverses of 0 and 1, and the bytes of the S-box on a block. -/
theorem sboxResult : Obligations.SboxResult := by
  refine ⟨fun s => ⟨Machine.exec_sbox s, ?_, ?_⟩, sboxBlock_getElem⟩
  · intro h
    simp [h]
  · intro h
    simp [h]

end Sys2Proof
end

section
/-! The obligations on the diffusion layer. The 3×3 matrix with diagonal `d` and off-diagonal `o` adds `o` times the group's
sum to `d ^^^ o` times each byte; that form is additive and composes. -/

namespace Sys2Proof

open Polynomial

/-! ### The laws of the field multiplication (R113) -/

theorem gfMul_comm (a b : Byte) : gfMul a b = gfMul b a :=
  bytePolynomial_injective (by rw [bytePolynomial_gfMul, bytePolynomial_gfMul, mul_comm])

theorem gfMul_assoc (a b c : Byte) : gfMul (gfMul a b) c = gfMul a (gfMul b c) := by
  apply bytePolynomial_injective
  calc bytePolynomial (gfMul (gfMul a b) c)
      = (bytePolynomial a * bytePolynomial b * bytePolynomial c) %ₘ fieldModulus := by
        rw [mul_modByMonic, bytePolynomial_modByMonic, bytePolynomial_gfMul, bytePolynomial_gfMul]
    _ = (bytePolynomial a * (bytePolynomial b * bytePolynomial c)) %ₘ fieldModulus := by rw [mul_assoc]
    _ = bytePolynomial (gfMul a (gfMul b c)) := by
        rw [mul_modByMonic, bytePolynomial_modByMonic, bytePolynomial_gfMul, bytePolynomial_gfMul]

theorem gfMul_xor_right (a b c : Byte) : gfMul a (b ^^^ c) = gfMul a b ^^^ gfMul a c := by
  apply bytePolynomial_injective
  simp only [bytePolynomial_gfMul, bytePolynomial_xor, mul_add, add_modByMonic]

theorem gfMul_xor_left (a b c : Byte) : gfMul (a ^^^ b) c = gfMul a c ^^^ gfMul b c := by
  rw [gfMul_comm, gfMul_xor_right, gfMul_comm c a, gfMul_comm c b]

@[simp] theorem gfMul_one_left (a : Byte) : gfMul 1#8 a = a := by
  rw [gfMul_comm, gfMul_one_right]

/-! ### A group times the matrix -/

theorem mixByte_same (d o a : Byte) : mixByte d o a a a = gfMul d a := by
  rw [mixByte, BitVec.xor_assoc, BitVec.xor_self, BitVec.xor_zero]

/-- The rows of the 3×3 matrix, for every group (R130, R131). -/
theorem mixGroups_group (d o : Byte) (x : Block) {g : Nat} (hg : g < 4) :
    (mixGroups d o x)[3 * g] = mixByte d o x[3 * g] x[3 * g + 1] x[3 * g + 2] ∧
    (mixGroups d o x)[3 * g + 1] = mixByte d o x[3 * g + 1] x[3 * g] x[3 * g + 2] ∧
    (mixGroups d o x)[3 * g + 2] = mixByte d o x[3 * g + 2] x[3 * g] x[3 * g + 1] := by
  interval_cases g <;> exact ⟨rfl, rfl, rfl⟩

/-- `mixGroups_group` with the products of each row in the order of the input bytes. -/
theorem mixGroups_rows (d o : Byte) (x : Block) {g : Nat} (hg : g < 4) :
    (mixGroups d o x)[3 * g] = gfMul d x[3 * g] ^^^ gfMul o x[3 * g + 1] ^^^ gfMul o x[3 * g + 2] ∧
    (mixGroups d o x)[3 * g + 1] = gfMul o x[3 * g] ^^^ gfMul d x[3 * g + 1] ^^^ gfMul o x[3 * g + 2] ∧
    (mixGroups d o x)[3 * g + 2] = gfMul o x[3 * g] ^^^ gfMul o x[3 * g + 1] ^^^ gfMul d x[3 * g + 2] := by
  obtain ⟨h0, h1, h2⟩ := mixGroups_group d o x hg
  refine ⟨h0, h1.trans ?_, h2.trans ?_⟩
  · rw [mixByte, BitVec.xor_comm (gfMul d _)]
  · rw [mixByte, BitVec.xor_assoc, BitVec.xor_comm]

/-- A group of three equal bytes is multiplied by the diagonal coefficient (R132, R134). -/
theorem mixGroups_equal_bytes (d o : Byte) {x : Block} {a : Byte} {g : Nat} (hg : g < 4) (h0 : x[3 * g] = a)
    (h1 : x[3 * g + 1] = a) (h2 : x[3 * g + 2] = a) {r : Nat} (hr : r < 3) :
    (mixGroups d o x)[3 * g + r] = gfMul d a := by
  obtain ⟨hm0, hm1, hm2⟩ := mixGroups_group d o x hg
  rw [h0, h1, h2, mixByte_same] at hm0 hm1 hm2
  interval_cases r
  · exact hm0
  · exact hm1
  · exact hm2

/-- Blocks that agree at every place of every group are equal. -/
theorem Block.ext_groups {x z : Block} (h : ∀ (g : Nat) (hg : g < 4) (r : Nat) (hr : r < 3), x[3 * g + r] = z[3 * g + r]) :
    x = z := by
  apply Block.ext_get
  intro i
  have hi := h (i / 3) (by omega) (i % 3) (by omega)
  simp only [Nat.div_add_mod] at hi
  exact hi

theorem mixGroups_const (d o a : Byte) : mixGroups d o (Block.const a) = Block.const (gfMul d a) := by
  apply Block.ext_groups
  intro g hg r hr
  rw [Block.const_getElem, mixGroups_equal_bytes d o hg _ _ _ hr] <;> exact Block.const_getElem a _ _

/-! ### The equivalent form: each byte and the sum of its group -/

/-- The sum of the three bytes of group `g` (R131). -/
def groupSum (x : Block) (g : Nat) (hg : g < 4) : Byte := x[3 * g] ^^^ x[3 * g + 1] ^^^ x[3 * g + 2]

theorem groupSum_xor (x z : Block) (g : Nat) (hg : g < 4) :
    groupSum (x.xor z) g hg = groupSum x g hg ^^^ groupSum z g hg := by
  simp only [groupSum, Block.xor_getElem]
  ac_rfl

theorem mixByte_eq_sum (d o own p q : Byte) :
    mixByte d o own p q = gfMul (d ^^^ o) own ^^^ gfMul o (own ^^^ p ^^^ q) := by
  have hcancel : gfMul (d ^^^ o) own ^^^ gfMul o own = gfMul d own := by
    rw [gfMul_xor_left, BitVec.xor_assoc, BitVec.xor_self, BitVec.xor_zero]
  rw [gfMul_xor_right, gfMul_xor_right, ← BitVec.xor_assoc, ← BitVec.xor_assoc, hcancel, mixByte]

/-- The equivalent form of the matrix (R131, R133): the two coefficients' sum times the byte, plus `o` times the sum of its
group. -/
theorem mixGroups_getElem (d o : Byte) (x : Block) {g r : Nat} (hg : g < 4) (hr : r < 3) :
    (mixGroups d o x)[3 * g + r] = gfMul (d ^^^ o) x[3 * g + r] ^^^ gfMul o (groupSum x g hg) := by
  obtain ⟨h0, h1, h2⟩ := mixGroups_group d o x hg
  rw [mixByte_eq_sum] at h0 h1 h2
  interval_cases r
  · exact h0
  · rw [h1, groupSum, BitVec.xor_comm x[3 * g + 1] x[3 * g]]
  · rw [h2, groupSum, BitVec.xor_assoc, BitVec.xor_comm x[3 * g + 2]]

/-- The sum of a group is multiplied by the diagonal coefficient: in each column the two off-diagonal products cancel. -/
theorem groupSum_mixGroups (d o : Byte) (x : Block) (g : Nat) (hg : g < 4) :
    groupSum (mixGroups d o x) g hg = gfMul d (groupSum x g hg) := by
  obtain ⟨h0, h1, h2⟩ := mixGroups_rows d o x hg
  calc groupSum (mixGroups d o x) g hg
      = gfMul d (groupSum x g hg) ^^^ (gfMul o (groupSum x g hg) ^^^ gfMul o (groupSum x g hg)) := by
        rw [groupSum, h0, h1, h2]
        simp only [groupSum, gfMul_xor_right]
        ac_rfl
    _ = gfMul d (groupSum x g hg) := by rw [BitVec.xor_self, BitVec.xor_zero]

/-- A matrix is additive. -/
theorem mixGroups_xor (d o : Byte) (x z : Block) :
    mixGroups d o (x.xor z) = (mixGroups d o x).xor (mixGroups d o z) := by
  apply Block.ext_groups
  intro g hg r hr
  simp only [mixGroups_getElem _ _ _ hg hr, Block.xor_getElem, groupSum_xor, gfMul_xor_right]
  ac_rfl

/-- A second matrix undoes a first when the byte comes back with factor 1 and the two factors of its group's sum are
equal, so that they cancel. -/
theorem mixGroups_leftInverse {d o d' o' : Byte} (hown : gfMul (d' ^^^ o') (d ^^^ o) = 1#8)
    (hsum : gfMul (d' ^^^ o') o = gfMul o' d) : Function.LeftInverse (mixGroups d' o') (mixGroups d o) := by
  intro x
  apply Block.ext_groups
  intro g hg r hr
  calc (mixGroups d' o' (mixGroups d o x))[3 * g + r]
      = gfMul (d' ^^^ o') (gfMul (d ^^^ o) x[3 * g + r] ^^^ gfMul o (groupSum x g hg)) ^^^
          gfMul o' (gfMul d (groupSum x g hg)) := by
        rw [mixGroups_getElem d' o' _ hg hr, mixGroups_getElem d o x hg hr, groupSum_mixGroups]
    _ = x[3 * g + r] ^^^ gfMul o' (gfMul d (groupSum x g hg)) ^^^ gfMul o' (gfMul d (groupSum x g hg)) := by
        rw [gfMul_xor_right, ← gfMul_assoc, ← gfMul_assoc, hown, hsum, gfMul_one_left, gfMul_assoc]
    _ = x[3 * g + r] := by rw [BitVec.xor_assoc, BitVec.xor_self, BitVec.xor_zero]

theorem thetaInv_theta : Function.LeftInverse thetaInv theta := mixGroups_leftInverse (by decide) (by decide)

theorem theta_thetaInv : Function.LeftInverse theta thetaInv := mixGroups_leftInverse (by decide) (by decide)

/-! ### The obligations -/

/-- Settles O18: the meaning of THETA, the rows of its matrix, and a group or a block of equal bytes. -/
theorem thetaResult : Obligations.ThetaResult := by
  refine ⟨fun s => ⟨theta s.x, Machine.exec_theta s, ?_⟩, mixGroups_const 3 2 0, mixGroups_const 3 2 0xFF⟩
  intro g hg
  obtain ⟨h0, h1, h2⟩ := mixGroups_rows 3 2 s.x hg
  exact ⟨h0, h1, h2, fun _ ha0 ha1 ha2 _ hr => mixGroups_equal_bytes 3 2 hg ha0 ha1 ha2 hr⟩

/-- Settles O20: each of the two matrices undoes the other, and a matrix is additive. -/
theorem diffusionRoundTrip : Obligations.DiffusionRoundTrip :=
  ⟨thetaInv_theta, fun x z => ⟨mixGroups_xor 3 2 x z, mixGroups_xor 246 247 x z⟩,
    ⟨thetaInv_theta.injective, theta_thetaInv.surjective⟩, ⟨theta_thetaInv.injective, thetaInv_theta.surjective⟩⟩

end Sys2Proof
end

section
/-! The obligation on the permutation layer: each output byte is the input byte at the listed position. -/

namespace Sys2Proof

/-- Output position `i` receives the input byte at position `gatherIndex[i]` (R140). -/
@[simp] theorem perm_getElem (x : Block) (i : Nat) (h : i < 12) : (perm x)[i] = x[gatherIndex[i]] :=
  Block.ofFn_getElem _ i h

/-- Moving equal bytes around changes nothing (R141). -/
@[simp] theorem perm_const (v : Byte) : perm (Block.const v) = Block.const v := by
  apply Block.ext_get
  intro i
  calc (perm (Block.const v))[i]
      = (Block.const v)[gatherIndex[i]] := perm_getElem _ i i.isLt
    _ = v := Block.const_getElem v _ _
    _ = (Block.const v)[i] := (Block.const_getElem v i i.isLt).symm

/-- Settles O22: the meaning of PERM, the twelve entries of the gather list, and a block of equal bytes. -/
theorem permResult : Obligations.PermResult := by
  refine ⟨fun s => ⟨perm s.x, Machine.exec_perm s, ?_⟩, perm_const⟩
  simp [perm_getElem, gatherIndex]

end Sys2Proof
end

section
/-! The obligations on the key schedule and the cipher: a new round key group by group, and `enc_block` round by round. -/

namespace Sys2Proof

/-! ### The groups of a new round key (R146) -/

theorem ksNext_first_group (c : Config) (prev : Block) (t : Nat) {j : Nat} (hj : j < 3) :
    (ksNext c prev t)[j] = ksFirst c prev t ⟨j, hj⟩ := by
  interval_cases j <;> rfl

theorem ksNext_later_group (c : Config) (prev : Block) (t : Nat) {g j : Nat} (hg : g < 3) (hj : j < 3) :
    (ksNext c prev t)[3 * (g + 1) + j] = prev[3 * (g + 1) + j] ^^^ (ksNext c prev t)[3 * g + j] := by
  interval_cases g <;> interval_cases j <;> rfl

/-- The groups of `ksNext_later_group` expanded to the first group and the bytes of the previous key. -/
theorem ksNext_expanded (c : Config) (prev : Block) (t : Nat) {j : Nat} (hj : j < 3) :
    (ksNext c prev t)[3 + j] = (ksNext c prev t)[j] ^^^ prev[3 + j] ∧
    (ksNext c prev t)[6 + j] = (ksNext c prev t)[j] ^^^ prev[3 + j] ^^^ prev[6 + j] ∧
    (ksNext c prev t)[9 + j] = (ksNext c prev t)[j] ^^^ prev[3 + j] ^^^ prev[6 + j] ^^^ prev[9 + j] := by
  have hstep {g : Nat} (hg : g < 3) := (ksNext_later_group c prev t hg hj).trans (BitVec.xor_comm _ _)
  have h1 : (ksNext c prev t)[3 + j] = (ksNext c prev t)[j] ^^^ prev[3 + j] := by
    simpa only [Nat.mul_zero, Nat.zero_add] using hstep (g := 0) (by decide)
  have h2 : (ksNext c prev t)[6 + j] = (ksNext c prev t)[3 + j] ^^^ prev[6 + j] := hstep (g := 1) (by decide)
  have h3 : (ksNext c prev t)[9 + j] = (ksNext c prev t)[6 + j] ^^^ prev[9 + j] := hstep (g := 2) (by decide)
  exact ⟨h1, by rw [h2, h1], by rw [h3, h2, h1]⟩

/-! ### The round key after a zero key (R148) -/

/-- A zero key adds nothing to the later groups, so each repeats the first. -/
theorem ksNext_zero_group (c : Config) (t : Nat) {g j : Nat} (hg : g < 4) (hj : j < 3) :
    (ksNext c (Block.const 0) t)[3 * g + j] = ksFirst c (Block.const 0) t ⟨j, hj⟩ := by
  induction g with
  | zero => simpa using ksNext_first_group c (Block.const 0) t hj
  | succ g ih =>
    rw [ksNext_later_group c _ t (by omega) hj, ih (by omega), Block.const_getElem]
    exact BitVec.zero_xor

/-- The reference schedule takes each source byte from its own place, with no feed byte and the round constant in all three (R147). -/
theorem ksFirst_reference (prev : Block) (t : Nat) (j : Fin 3) :
    ksFirst .reference prev t j = sbox .reference prev[j.val] ^^^ rc t := by
  rw [ksFirst]
  fin_cases j <;> simp [Config.reference]

theorem sbox_reference_zero : sbox .reference 0#8 = 0x63 := by
  rw [sbox, gfInv_zero, affine_zero, Config.reference]

theorem ksNext_reference_zero (t : Nat) : ksNext .reference (Block.const 0) t = Block.const (0x63 ^^^ rc t) := by
  apply Block.ext_groups
  intro g hg r hr
  rw [ksNext_zero_group .reference t hg hr, ksFirst_reference]
  simp [sbox_reference_zero]

/-! ### The rounds of the cipher (R150, R155) -/

/-- From the state and the round key after round `t`, the next `n` rounds lead to the state after round `t + n`. -/
theorem cipherRounds_stateAfterRound (c : Config) (p k : Block) (n t : Nat) :
    cipherRounds c (stateAfterRound c p k t) (roundKey c k t) (List.range' (t + 1) n) =
      stateAfterRound c p k (t + n) := by
  induction n generalizing t with
  | zero => rfl
  | succ n ih =>
    calc cipherRounds c (stateAfterRound c p k t) (roundKey c k t) (List.range' (t + 1) (n + 1))
        = cipherRounds c (stateAfterRound c p k (t + 1)) (roundKey c k (t + 1)) (List.range' (t + 1 + 1) n) := rfl
      _ = stateAfterRound c p k (t + 1 + n) := ih (t + 1)
      _ = stateAfterRound c p k (t + (n + 1)) := by rw [Nat.add_right_comm, Nat.add_assoc]

/-! ### The obligations -/

/-- Settles O25: the first group, the step from a group to the next, and the groups expanded. -/
theorem keyScheduleBytes : Obligations.KeyScheduleBytes := by
  refine fun c prev t => ⟨fun j hj => ksNext_first_group c prev t hj, ?_, fun j hj => ksNext_expanded c prev t hj⟩
  rintro (_ | g) ⟨hpos, hlt⟩ j hj
  · omega
  · exact ksNext_later_group c prev t (by omega) hj

/-- Settles O26: the meaning of KSNEXT, and the round key after a zero key. -/
theorem ksnextResult : Obligations.KsnextResult := ⟨Machine.exec_ksnext, ksNext_reference_zero⟩

/-- Settles O28: ten rounds from the state and the key before round 1. -/
theorem encBlockIsTenRounds : Obligations.EncBlockIsTenRounds := fun c p k =>
  cipherRounds_stateAfterRound c p k 10 0

end Sys2Proof
end

section
/-! The obligation on the command ENCBLK: one issue, and a second one from the state the first has left. -/

namespace Sys2Proof
open Machine

/-- A state reached by ENCBLK holds the cipher of its own `X` and `KEY` in `Y`: the command keeps all that it reads (R158). -/
theorem exec_encblk_next_y {s t : State} (h : exec .encblk s = .next t) : t.y = encBlock t.config t.x t.key := by
  rw [exec_encblk] at h
  cases h
  simp

/-- Settles O29: the meaning of ENCBLK, and a second issue, which enciphers the same `X` under the same `KEY`. -/
theorem encblkResult : Obligations.EncblkResult :=
  ⟨exec_encblk, fun _ t h => ⟨_, exec_encblk t, (exec_encblk_next_y h).symm⟩⟩

end Sys2Proof
end

section
/-! The obligations on the counter block: its increment as an increment of the counter, the nonce half kept. -/

namespace Sys2Proof

/-! ### The counter and its bytes -/

/-- Byte `11 - k` of a counter block is digit `k` of its counter in base 256 (R62, R167). -/
theorem counterValue_digit (cb : Block) {k : Nat} (hk : k < 6) :
    counterValue cb / 256 ^ k % 256 = cb[11 - k].toNat := by
  have h6 := cb[6].isLt
  have h7 := cb[7].isLt
  have h8 := cb[8].isLt
  have h9 := cb[9].isLt
  have h10 := cb[10].isLt
  have h11 := cb[11].isLt
  unfold counterValue
  interval_cases k <;> simp only [Nat.reduceSub] <;> omega

theorem ofNat_counterValue_div (cb : Block) {k : Nat} (hk : k < 6) :
    BitVec.ofNat 8 (counterValue cb / 256 ^ k) = cb[11 - k] :=
  BitVec.eq_of_toNat_eq ((BitVec.toNat_ofNat _ 8).trans (counterValue_digit cb hk))

theorem withCounter_getElem (cb : Block) (n : Nat) {k : Nat} (hk : k < 6) :
    (withCounter cb n)[11 - k] = BitVec.ofNat 8 (n / 256 ^ k) := by
  interval_cases k <;> rfl

theorem withCounter_getElem_nonce (cb : Block) (n : Nat) {i : Nat} (hi : i < 6) : (withCounter cb n)[i] = cb[i] := by
  interval_cases i <;> rfl

/-- The six bytes are those of the integer modulo `2^48`. -/
theorem be48Byte_mod (n : Nat) {k : Nat} (hk : k < 6) : be48Byte (n % 2 ^ 48) k = be48Byte n k := by
  apply BitVec.eq_of_toNat_eq
  simp only [be48Byte, BitVec.toNat_ofNat]
  interval_cases k <;> omega

theorem withCounter_mod (cb : Block) (n : Nat) : withCounter cb (n % 2 ^ 48) = withCounter cb n := by
  simp (disch := decide) only [withCounter, be48Byte_mod]

@[simp] theorem counterValue_withCounter (cb : Block) (n : Nat) : counterValue (withCounter cb n) = n % 2 ^ 48 := by
  simp only [counterValue, withCounter, be48Byte, Vector.getElem_mk, List.getElem_toArray, List.getElem_cons_succ,
    List.getElem_cons_zero, BitVec.toNat_ofNat, Nat.reduceSub]
  omega

/-- A second counter takes the place of the first. -/
@[simp] theorem withCounter_withCounter (cb : Block) (m n : Nat) :
    withCounter (withCounter cb m) n = withCounter cb n := rfl

/-! ### The increment -/

theorem ctrInc_eq (cb : Block) : ctrInc cb = withCounter cb (counterValue cb + 1) := withCounter_mod cb _

theorem ctrInc_withCounter (cb : Block) (n : Nat) : ctrInc (withCounter cb n) = withCounter cb (n + 1) := by
  rw [ctrInc, counterValue_withCounter, Nat.mod_add_mod, withCounter_mod, withCounter_withCounter]

theorem ctrInc_iterate_withCounter (cb : Block) (n i : Nat) :
    ctrInc^[i] (withCounter cb n) = withCounter cb (n + i) := by
  induction i with
  | zero => rfl
  | succ i ih => rw [Function.iterate_succ_apply', ih, ctrInc_withCounter, Nat.add_assoc]

theorem nonceBlock_eq_withCounter (n : Nonce) : nonceBlock n = withCounter (nonceBlock n) 0 := rfl

/-- The last counter block of a nonce, before the silent wrap (R172). -/
theorem withCounter_nonceBlock_max (n : Nonce) :
    withCounter (nonceBlock n) (2 ^ 48 - 1) =
      #v[n[0], n[1], n[2], n[3], n[4], n[5], 0xFF, 0xFF, 0xFF, 0xFF, 0xFF, 0xFF] := rfl

/-! ### The carry -/

/-- The carry out of the `k + 1` low bytes: there is one out of the `k` low bytes, and the next byte is `FF`. -/
theorem pow_succ_dvd_counterValue_succ_iff (cb : Block) {k : Nat} (hk : k < 6) :
    256 ^ (k + 1) ∣ counterValue cb + 1 ↔ 256 ^ k ∣ counterValue cb + 1 ∧ cb[11 - k] = 0xFF := by
  have hbyte : cb[11 - k] = 0xFF ↔ counterValue cb / 256 ^ k % 256 = 255 := by
    rw [counterValue_digit cb hk, ← BitVec.toNat_inj]
    rfl
  by_cases hlow : 256 ^ k ∣ counterValue cb + 1
  · rw [pow_succ, ← Nat.dvd_div_iff_mul_dvd hlow, Nat.succ_div_of_dvd hlow, hbyte]
    omega
  · simp only [hlow, false_and, iff_false]
    exact fun h => hlow ((pow_dvd_pow 256 k.le_succ).trans h)

/-- The increment carries out of the `k` low bytes exactly when each of them is `FF`. -/
theorem pow_dvd_counterValue_succ_iff (cb : Block) {k : Nat} (hk : k ≤ 6) :
    256 ^ k ∣ counterValue cb + 1 ↔ ∀ (j : Nat) (hj : j < 12), 11 < j + k → cb[j] = 0xFF := by
  induction k with
  | zero =>
    rw [pow_zero]
    exact ⟨fun _ j hj h => absurd h (by omega), fun _ => one_dvd _⟩
  | succ k ih =>
    rw [pow_succ_dvd_counterValue_succ_iff cb hk, ih (by omega)]
    constructor
    · rintro ⟨hlow, hnext⟩ j hj h
      obtain rfl | hne := eq_or_ne j (11 - k)
      · exact hnext
      · exact hlow j hj (by omega)
    · exact fun h => ⟨fun j hj hlow => h j hj (by omega), h (11 - k) (by omega) (by omega)⟩

/-- The byte form of the increment (R167): a byte takes the carry out of the bytes after it. -/
theorem ctrInc_getElem (cb : Block) {k : Nat} (hk : k < 6) :
    (ctrInc cb)[11 - k] = cb[11 - k] + if 256 ^ k ∣ counterValue cb + 1 then 1 else 0 := by
  simp only [ctrInc_eq]
  rw [withCounter_getElem cb _ hk, Nat.succ_div, BitVec.ofNat_add, ofNat_counterValue_div cb hk]
  split <;> rfl

/-! ### The obligations -/

/-- Settles O31: the nonce half and the counter of `withCounter`, and the carry into each byte. -/
theorem counterIncrement : Obligations.CounterIncrement := by
  refine fun cb => ⟨fun i hi => withCounter_getElem_nonce cb _ hi, ?_, fun i hi => ?_⟩
  · rw [ctrInc_eq, counterValue_withCounter]
  · obtain ⟨k, hk, rfl⟩ : ∃ k < 6, i = 11 - k := ⟨11 - i, by omega, by omega⟩
    have hcarry := pow_dvd_counterValue_succ_iff cb hk.le
    rw [ctrInc_getElem cb hk]
    constructor
    · intro hff
      rw [if_pos (hcarry.2 fun j hj h => hff j hj (by omega))]
    · rintro ⟨j, hj, hlater, hne⟩
      rw [if_neg fun h => hne (hcarry.1 h j hj (by omega))]
      exact BitVec.add_zero _

/-- Settles O32: repeated increments add up in the counter, which is taken modulo `2^48`. -/
theorem counterConfinement : Obligations.CounterConfinement := by
  intro n
  constructor
  · rw [nonceBlock_eq_withCounter, ctrInc_iterate_withCounter]
    rfl
  · rw [← withCounter_nonceBlock_max, ctrInc_withCounter]
    rfl

end Sys2Proof
end

section
/-! The obligations on the command CTR: what it does in each case, and that a second one undoes the first. -/

namespace Sys2Proof

/-- Counter mode undoes itself: each block meets the same key stream block twice. -/
theorem ctrFrom_ctrFrom (c : Config) (k cb : Block) (data : List Block) :
    ctrFrom c k cb (ctrFrom c k cb data) = data := by
  induction data generalizing cb with
  | nil => rfl
  | cons d ds ih => rw [ctrFrom, ctrFrom, Block.xor_cancel, ih]

theorem ctrApply_ctrApply (c : Config) (data : List Block) (k : Block) (n : Nonce) :
    ctrApply c (ctrApply c data k n) k n = data :=
  ctrFrom_ctrFrom c k _ data

namespace Machine

/-- A command CTR whose checks fail writes its status alone. -/
theorem exec_ctr_of_failure {s : State} {code : Status} (h : firstFailure (ctrChecks s) = some code) :
    exec .ctr s = .next (s.ended code) := by
  rw [exec, execCtr, validated_failed h, State.ended_eq]

/-- A command CTR that passes its checks and finds its data written: the data is replaced by its counter-mode image. -/
theorem exec_ctr_of_holds {s : State} {data : List Block} (hlen : s.CtrLengthOk) (hnonce : s.nonceLen = 48)
    (hdata : s.HoldsData data) :
    exec .ctr s = .next ((s.setData (ctrApply s.config data s.key s.nonce)).finish .ok) := by
  have hchecks := ctrChecks_none.2 ⟨hlen, hnonce⟩
  have hwritten := State.written_of_holds hdata
  obtain ⟨_, hfail, _⟩ | ⟨_, _, hfail, _⟩ | ⟨_, _, hexec⟩ := exec_ctr_cases s
  · cases hchecks.symm.trans hfail
  · cases hwritten.symm.trans hfail
  · rwa [State.data_of_holds hdata] at hexec

/-- A command CTR that finds a counter-mode image under its own operands turns it back. -/
theorem exec_ctr_of_holds_ctrApply {s : State} {data : List Block} (hlen : s.CtrLengthOk) (hnonce : s.nonceLen = 48)
    (hdata : s.HoldsData (ctrApply s.config data s.key s.nonce)) :
    exec .ctr s = .next ((s.setData data).finish .ok) := by
  rw [exec_ctr_of_holds hlen hnonce hdata, ctrApply_ctrApply]

/-- Two states that hold the same data read alike inside it. -/
theorem State.HoldsData.read_eq {s t : State} {bs : List Block} (hs : s.HoldsData bs) (ht : t.HoldsData bs) {a : Nat}
    (ha : a < 12 * s.dataBlocks) : t.dbuf.read a = s.dbuf.read a := by
  obtain ⟨hlen, hs⟩ := hs
  obtain ⟨-, ht⟩ := ht
  have hi : a / 12 < bs.length := by omega
  have hj : a % 12 < 12 := Nat.mod_lt a (by omega)
  rw [← Nat.div_add_mod a 12, hs _ hi _ hj, ht _ hi _ hj]

/-- Replaced data put back leaves every byte of the buffer as it was. -/
theorem State.setData_setData_read {s : State} {bs bs' : List Block} (h : s.HoldsData bs)
    (hlen : bs'.length = s.dataBlocks) (a : Nat) :
    ((s.setData bs').setData bs).dbuf.read a = s.dbuf.read a := by
  have hlen' : bs.length = (s.setData bs').dataBlocks := h.1
  by_cases ha : a < 12 * s.dataBlocks
  · exact State.HoldsData.read_eq h ((s.setData bs').setData_holds hlen') ha
  · rw [State.setData_outside _ hlen' (Nat.not_lt.1 ha), State.setData_outside s hlen (Nat.not_lt.1 ha)]

/-- Replaced data put back leaves a canonical list as it was. -/
theorem State.setData_setData_dbuf {s : State} {bs bs' : List Block} (h : s.HoldsData bs)
    (hlen : bs'.length = s.dataBlocks) (hwf : s.dbuf.wf) : ((s.setData bs').setData bs).dbuf = s.dbuf :=
  Memory.ext_read (Memory.writeBytes_wf (Memory.writeBytes_wf hwf _ _) _ _) hwf (State.setData_setData_read h hlen)

end Machine

open Machine

/-! ### The obligations -/

/-- Settles O34: the two failures by the checks, the success by `exec_ctr_of_holds`. -/
theorem ctrCommand : Obligations.CtrCommand := by
  refine fun s => ⟨fun hlen => exec_ctr_of_failure (ctrChecks_badLength hlen),
    fun hlen hnonce => exec_ctr_of_failure (ctrChecks_badNonce hlen hnonce), fun data hlen hnonce hdata => ?_⟩
  have himage : (ctrApply s.config data s.key s.nonce).length = s.dataBlocks := (ctrApply_length ..).trans hdata.1
  exact ⟨(s.setData (ctrApply s.config data s.key s.nonce)).dbuf, exec_ctr_of_holds hlen hnonce hdata,
    s.setData_holds himage, fun a => s.setData_outside himage⟩

/-- Settles O35: the second CTR finds the image of the data under the same operands, and turns it back. -/
theorem ctrTwiceRestoresTheData : Obligations.CtrTwiceRestoresTheData := by
  intro s hlen hnonce hwritten
  have hdata : s.HoldsData s.data := State.holds_of_written (State.firstUnwritten_of_written hwritten)
  have himage : (ctrApply s.config s.data s.key s.nonce).length = s.dataBlocks :=
    (ctrApply_length ..).trans s.data_length
  have hfirst := exec_ctr_of_holds hlen hnonce hdata
  have hsecond := exec_ctr_of_holds_ctrApply (s := (s.setData (ctrApply s.config s.data s.key s.nonce)).finish .ok)
    hlen hnonce (s.setData_holds himage)
  refine ⟨_, _, hfirst, hsecond, rfl, rfl, ?_, ?_⟩
  · simpa only [State.finish_dbuf, State.setData_dbuf] using State.setData_setData_read hdata himage
  · simpa only [State.finish_dbuf, State.setData_dbuf] using State.setData_setData_dbuf hdata himage

end Sys2Proof
end

section
/-! The obligations on the hash: its chain, and the command HASH in each case. -/

namespace Sys2Proof

theorem dmHash_nil (c : Config) : dmHash c [] = Block.const 0 := rfl

/-- A further block is one more step of the chain (R181, R184). -/
theorem dmHash_concat (c : Config) (m : List Block) (b : Block) : dmHash c (m ++ [b]) = dmStep c (dmHash c m) b :=
  List.foldl_concat ..

namespace Machine

/-- Work on data that the buffer holds meets no unwritten byte. -/
theorem withData_of_holds {s : State} {data : List Block} (h : s.HoldsData data)
    (work : List Block → Host.Outcome State Fault Refusal) : withData s work = work data := by
  rw [withData, State.written_of_holds h, State.data_of_holds h]

/-- The empty message fits every buffer (R183). -/
theorem State.hashLengthOk_of_dataLen_zero {s : State} (h : s.dataLen = 0) : s.HashLengthOk := by
  simp [State.HashLengthOk, h]

/-- Without data there is no byte to be written. -/
theorem State.holdsData_nil_of_dataLen_zero {s : State} (h : s.dataLen = 0) : s.HoldsData [] := by
  simp [State.HoldsData, State.dataBlocks, h]

/-- A command HASH that passes its checks and finds its data written: `Y` becomes the digest. -/
theorem exec_hash_of_holds {s : State} {data : List Block} (hlen : s.HashLengthOk) (hdata : s.HoldsData data) :
    exec .hash s = .next ((s.setY (dmHash s.config data)).finish .ok) := by
  rw [exec, execHash, validated_passed (hashChecks_none.2 hlen), withData_of_holds hdata, complete_eq]

/-- A command HASH with a bad data length writes its status alone. -/
theorem exec_hash_of_badLength {s : State} (h : ¬s.HashLengthOk) :
    exec .hash s = .next (s.ended .invalidDataLength) := by
  rw [exec, execHash, validated_failed (hashChecks_badLength h), State.ended_eq]

end Machine

open Machine

/-! ### The obligations -/

/-- Settles O36: the chain at the empty message, and its step written out. -/
theorem hashChain : Obligations.HashChain := fun c => ⟨dmHash_nil c, dmHash_concat c⟩

/-- Settles O37: the failed length, the digest of the data held, and the empty message as data of no block. -/
theorem hashCommand : Obligations.HashCommand := fun _ =>
  ⟨exec_hash_of_badLength, fun _ => exec_hash_of_holds, fun hzero =>
    exec_hash_of_holds (State.hashLengthOk_of_dataLen_zero hzero) (State.holdsData_nil_of_dataLen_zero hzero)⟩

end Sys2Proof
end

section
/-! The obligations on the HMAC: its tag as two hashes, and the command HMAC in each case. -/

namespace Sys2Proof

/-- Without the optional block the inner hash runs over the inner pad block and the data (R190). -/
theorem hmacTag_none (c : Config) (data : List Block) (k : Block) :
    hmacTag c data k none =
      dmHash c [k.xor (Block.const 0x5C), dmHash c (k.xor (Block.const 0x36) :: data)] := rfl

/-- The optional block stands between the inner pad block and the data (R190). -/
theorem hmacTag_some (c : Config) (data : List Block) (k p : Block) :
    hmacTag c data k (some p) =
      dmHash c [k.xor (Block.const 0x5C), dmHash c (k.xor (Block.const 0x36) :: p :: data)] := rfl

namespace Machine

theorem State.optionalBlock_absent {s : State} (h : s.pfxLen = 0) : s.optionalBlock = none := by
  simp [State.optionalBlock, h]

theorem State.optionalBlock_present {s : State} (h : s.pfxLen = 96) : s.optionalBlock = some s.pfx := by
  simp [State.optionalBlock, h]

/-- A command HMAC whose checks fail writes its status alone. -/
theorem exec_hmac_of_failure {s : State} {code : Status} (h : firstFailure (hmacChecks s) = some code) :
    exec .hmac s = .next (s.ended code) := by
  rw [exec, execHmac, validated_failed h, State.ended_eq]

/-- A command HMAC that passes its checks and finds its data written: `Y` becomes the tag. -/
theorem exec_hmac_of_holds {s : State} {data : List Block} (hkey : s.keyLen = 96) (hlen : s.HashLengthOk)
    (hpfx : s.PfxLengthOk) (hdata : s.HoldsData data) :
    exec .hmac s = .next ((s.setY (hmacTag s.config data s.key s.optionalBlock)).finish .ok) := by
  rw [exec, execHmac, validated_passed (hmacChecks_none.2 ⟨hkey, hlen, hpfx⟩), withData_of_holds hdata, complete_eq]

end Machine

open Machine

/-! ### The obligations -/

/-- Settles O38: the two forms of the tag. -/
theorem hmacIsTwoHashes : Obligations.HmacIsTwoHashes := fun c data k p =>
  ⟨hmacTag_none c data k, hmacTag_some c data k p⟩

/-- Settles O39: the two failures by the checks, and the tag with the optional block that each accepted length gives. -/
theorem hmacCommand : Obligations.HmacCommand := by
  refine fun s => ⟨fun hkey => exec_hmac_of_failure (hmacChecks_badKey hkey),
    fun hkey hlen => exec_hmac_of_failure (hmacChecks_badLength hkey hlen),
    fun data hkey hlen hdata => ⟨fun habsent => ?_, fun hpresent => ?_⟩⟩
  · rw [← State.optionalBlock_absent habsent]
    exact exec_hmac_of_holds hkey hlen (.inl habsent) hdata
  · rw [← State.optionalBlock_present hpresent]
    exact exec_hmac_of_holds hkey hlen (.inr hpresent) hdata

end Sys2Proof
end

section
/-! What every command can do, said once for the thirteen: fail a check, stop at unwritten data, or complete with its
result; and what its result changes. -/

namespace Sys2Proof.Machine

/-- The checks of a command in their order; a primitive command has none (R211, R212). -/
def State.commandChecks (s : State) : Instr → List (Bool × Status)
  | .ctr => ctrChecks s
  | .ae => ctrChecks s
  | .hash => hashChecks s
  | .hmac => hmacChecks s
  | _ => []

/-- The state with the result of a command written, before its completion (R94). -/
def State.result (s : State) : Instr → State
  | .gfmul => s.setR (gfMul s.a s.b)
  | .gfinv => s.setR (gfInv s.a)
  | .affine => s.setR (affine s.config s.a)
  | .sbox => s.setR (sbox s.config s.a)
  | .theta => s.setY (theta s.x)
  | .thetai => s.setY (thetaInv s.x)
  | .perm => s.setY (perm s.x)
  | .ksnext => s.setY (ksNext s.config s.x s.t.toNat)
  | .encblk => s.setY (encBlock s.config s.x s.key)
  | .ctr => s.setData (ctrApply s.config s.data s.key s.nonce)
  | .hash => s.setY (dmHash s.config s.data)
  | .hmac => s.setY (hmacTag s.config s.data s.key s.optionalBlock)
  | .ae => (s.setData (aeSeal s.config s.data s.key s.nonce).1).setY (aeSeal s.config s.data s.key s.nonce).2

/-! ### The outcomes of a command -/

/-- The data byte at which a command whose checks pass stops: a command with checks reads the data, the others none. -/
def State.firstStop (s : State) (i : Instr) : Option Nat :=
  if possibleStatuses i = [.ok] then none else s.dbuf.firstUnwritten 0 (12 * s.dataBlocks)

/-- Everything a command can do. -/
theorem exec_cases (i : Instr) (s : State) :
    (∃ code, firstFailure (s.commandChecks i) = some code ∧ exec i s = .next (s.finish code)) ∨
    (firstFailure (s.commandChecks i) = none ∧ ∃ a, s.firstStop i = some a ∧ exec i s = .fault (.unwrittenData a)) ∨
    (firstFailure (s.commandChecks i) = none ∧ s.firstStop i = none ∧ exec i s = .next ((s.result i).finish .ok)) := by
  cases i
  case ctr => exact exec_ctr_cases s
  case hash => exact exec_hash_cases s
  case hmac => exact exec_hmac_cases s
  case ae => exact exec_ae_cases s
  all_goals exact .inr (.inr ⟨rfl, rfl, rfl⟩)

theorem exec_failed {i : Instr} {s : State} {code : Status} (h : firstFailure (s.commandChecks i) = some code) :
    exec i s = .next (s.finish code) := by
  obtain ⟨_, h', hexec⟩ | ⟨h', -⟩ | ⟨h', -⟩ := exec_cases i s <;> cases h.symm.trans h'
  exact hexec

theorem exec_stopped {i : Instr} {s : State} {a : Nat} (hpass : firstFailure (s.commandChecks i) = none)
    (h : s.firstStop i = some a) : exec i s = .fault (.unwrittenData a) := by
  obtain ⟨_, hfail, -⟩ | ⟨-, _, h', hexec⟩ | ⟨-, h', -⟩ := exec_cases i s
  · cases hpass.symm.trans hfail
  · cases h.symm.trans h'
    exact hexec
  · cases h.symm.trans h'

theorem exec_completed {i : Instr} {s : State} (hpass : firstFailure (s.commandChecks i) = none)
    (h : s.firstStop i = none) : exec i s = .next ((s.result i).finish .ok) := by
  obtain ⟨_, hfail, -⟩ | ⟨-, _, h', -⟩ | ⟨-, -, hexec⟩ := exec_cases i s
  · cases hpass.symm.trans hfail
  · cases h.symm.trans h'
  · exact hexec

theorem commandChecks_none {s : State} {i : Instr} : firstFailure (s.commandChecks i) = none ↔ s.ChecksPass i := by
  cases i
  case ctr => exact ctrChecks_none
  case ae => exact ctrChecks_none
  case hash => exact hashChecks_none
  case hmac => exact hmacChecks_none
  all_goals exact ⟨fun _ => trivial, fun _ => rfl⟩

theorem commandChecks_status (s : State) (i : Instr) :
    ∀ p ∈ s.commandChecks i, p.2 ≠ .ok ∧ p.2 ∈ possibleStatuses i := by
  cases i <;> simp [State.commandChecks, possibleStatuses, ctrChecks, hashChecks, hmacChecks]

/-- A failed check gives a status of the command's column that is not `Ok` (R94, R210). -/
theorem commandChecks_some {s : State} {i : Instr} {code : Status}
    (h : firstFailure (s.commandChecks i) = some code) : code ≠ .ok ∧ code ∈ possibleStatuses i := by
  obtain ⟨p, hp, -, rfl⟩ := firstFailure_some h
  exact commandChecks_status s i p hp

theorem ok_mem_possibleStatuses (i : Instr) : .ok ∈ possibleStatuses i := by cases i <;> decide

/-- The two ways a command ends: a failed check and nothing but its status, or the result. -/
theorem exec_next {i : Instr} {s t : State} (h : exec i s = .next t) :
    (∃ code, code ≠ .ok ∧ ¬s.ChecksPass i ∧ t = s.finish code) ∨
    (s.ChecksPass i ∧ t = (s.result i).finish .ok) := by
  obtain ⟨code, hfail, hexec⟩ | ⟨-, _, -, hexec⟩ | ⟨hpass, -, hexec⟩ := exec_cases i s <;> rw [hexec] at h <;> cases h
  · have hnot : ¬s.ChecksPass i := by simp [← commandChecks_none, hfail]
    exact .inl ⟨code, (commandChecks_some hfail).1, hnot, rfl⟩
  · exact .inr ⟨commandChecks_none.1 hpass, rfl⟩

theorem firstStop_of_written {s : State} (i : Instr) (h : s.DataWritten) : s.firstStop i = none := by
  rw [State.firstStop, State.firstUnwritten_of_written h, ite_self]

/-- A command without a stop ends. -/
theorem exec_next_of_firstStop {s : State} {i : Instr} (h : s.firstStop i = none) : ∃ t, exec i s = .next t := by
  cases hchecks : firstFailure (s.commandChecks i) with
  | some code => exact ⟨_, exec_failed hchecks⟩
  | none => exact ⟨_, exec_completed hchecks h⟩

/-- A command that ends leaves the core idle and done, and its status says whether the checks passed (R214, R216). -/
theorem exec_next_flags {i : Instr} {s t : State} (h : exec i s = .next t) :
    t.flags = s.flags.completed ∧ (s.ChecksPass i ↔ t.status = .ok) := by
  obtain ⟨code, hne, hnot, rfl⟩ | ⟨hpass, rfl⟩ := exec_next h
  · exact ⟨rfl, by simp [hnot, hne]⟩
  · exact ⟨by cases i <;> rfl, by simp [hpass]⟩

/-- A command that has only the status `Ok` has no check. -/
theorem checksPass_of_primitive {s : State} {i : Instr} (h : possibleStatuses i = [.ok]) : s.ChecksPass i := by
  cases i
  case ctr | ae | hash | hmac => cases h
  all_goals trivial

theorem Status.code_eq_zero_iff (st : Status) : st.code = 0 ↔ st = .ok := by cases st <;> decide

/-! ### What the result changes -/

theorem State.SameInputs.refl (s : State) : s.SameInputs s :=
  ⟨rfl, rfl, rfl, rfl, rfl, rfl, rfl, rfl, rfl, rfl, rfl, rfl, rfl, rfl, rfl, rfl, rfl⟩

theorem State.result_sameInputs (s : State) (i : Instr) : s.SameInputs (s.result i) := by
  cases i <;> exact State.SameInputs.refl s

/-- A completion writes `STATUS`, `BUSY` and `DONE`, none of them an input. -/
theorem State.SameInputs.finish {s t : State} (h : s.SameInputs t) (st : Status) : s.SameInputs (t.finish st) := h

/-- No command writes an input (R34). -/
theorem exec_sameInputs {i : Instr} {s t : State} (h : exec i s = .next t) : s.SameInputs t := by
  obtain ⟨code, -, -, rfl⟩ | ⟨-, rfl⟩ := exec_next h
  · exact (State.SameInputs.refl s).finish code
  · exact (s.result_sameInputs i).finish .ok

theorem exec_config {i : Instr} {s t : State} (h : exec i s = .next t) : t.config = s.config := by
  obtain ⟨-, -, -, -, -, -, -, -, -, -, -, -, -, hconfig, -⟩ := exec_sameInputs h
  exact hconfig

theorem State.result_r {i : Instr} (s : State) (h : writesR i = false) : (s.result i).r = s.r := by
  cases i
  case gfmul | gfinv | affine | sbox => cases h
  all_goals rfl

theorem State.result_y {i : Instr} (s : State) (h : writesY i = false) : (s.result i).y = s.y := by
  cases i
  case gfmul | gfinv | affine | sbox | ctr => rfl
  all_goals cases h

/-- `CTR` and `AE` write the counter-mode image of the data, the other commands no byte of the buffer (R32). -/
theorem State.result_dbuf (s : State) (i : Instr) :
    (s.result i).dbuf =
      if writesData i then s.dbuf.writeBytes 0 (blockBytes (ctrApply s.config s.data s.key s.nonce)) else s.dbuf := by
  cases i <;> rfl

/-- No command writes a byte above its data (R32). -/
theorem State.result_read_outside (s : State) (i : Instr) {a : Nat} (ha : s.dataBytes ≤ a) :
    (s.result i).dbuf.read a = s.dbuf.read a := by
  rw [State.result_dbuf]
  split
  · apply Memory.read_writeBytes_outside
    rw [blockBytes_length, ctrApply_length, State.data_length]
    unfold State.dataBytes at ha
    unfold State.dataBlocks
    omega
  · rfl

/-! ### The obligations on every command's end and frame -/

/-- Settles O44: a status other than `Ok` is that of a failed check. -/
theorem failedCommandChangesOnlyStatus : Obligations.FailedCommandChangesOnlyStatus := by
  intro i s t h hne
  obtain ⟨code, -, -, rfl⟩ | ⟨-, rfl⟩ := exec_next h
  · rfl
  · exact absurd rfl hne

/-- Settles O45: the flags of a completion; a primitive command reads no data, so it always ends. -/
theorem commandEndsIdleAndDone : Obligations.CommandEndsIdleAndDone := by
  constructor
  · intro i s t h
    rw [Status.code_eq_zero_iff]
    exact exec_next_flags h
  · intro i s hprim
    obtain ⟨t, h⟩ := exec_next_of_firstStop (if_pos hprim : s.firstStop i = none)
    obtain ⟨-, hstatus⟩ := exec_next_flags h
    exact ⟨t, h, (Status.code_eq_zero_iff _).2 (hstatus.1 (checksPass_of_primitive hprim))⟩

/-- Settles O46: written data leaves no stop, and every end is idle and done. -/
theorem writtenDataLetsEveryCommandComplete : Obligations.WrittenDataLetsEveryCommandComplete := by
  intro i s hwritten
  obtain ⟨t, h⟩ := exec_next_of_firstStop (firstStop_of_written i hwritten)
  obtain ⟨hflags, hstatus⟩ := exec_next_flags h
  exact ⟨t, h, by rw [hflags, Flags.completed_busy], by rw [hflags, Flags.completed_done], hstatus⟩

/-- Settles O42: a failure writes the status alone, a success what `State.result` says. -/
theorem commandsWriteOnlyTheirResults : Obligations.CommandsWriteOnlyTheirResults := by
  intro i s t h
  refine ⟨exec_sameInputs h, ?_⟩
  obtain ⟨code, -, -, rfl⟩ | ⟨-, rfl⟩ := exec_next h
  · exact ⟨fun _ => rfl, fun _ => rfl, fun _ => rfl, fun _ _ => rfl⟩
  · exact ⟨s.result_r, s.result_y, fun hdata => by simp [State.result_dbuf, hdata], fun _ => s.result_read_outside i⟩

/-! ### The stop at unwritten data -/

/-- The first unwritten address of a range is what the search finds. -/
theorem Memory.firstUnwritten_eq_some {m : Memory} {n a : Nat} (ha : a < n) (hnone : m.read a = none)
    (hbefore : ∀ z < a, (m.read z).isSome = true) : m.firstUnwritten 0 n = some a := by
  cases h : m.firstUnwritten 0 n with
  | none => simpa [hnone] using Memory.firstUnwritten_none.1 h a ha
  | some x =>
    obtain ⟨-, -, hx, hsome⟩ := Memory.firstUnwritten_some h
    obtain hlt | rfl | hgt := Nat.lt_trichotomy a x
    · simpa [hnone] using hsome a a.zero_le hlt
    · rfl
    · simpa [hx] using hbefore x hgt

/-- The data length that a mode command accepts is a number of whole blocks. -/
theorem State.dataBytes_of_checksPass {s : State} {i : Instr} (hmode : possibleStatuses i ≠ [.ok])
    (h : s.ChecksPass i) : s.dataBytes = 12 * s.dataBlocks := by
  cases i
  case ctr => exact State.dataBytes_eq h.1.2.1
  case ae => exact State.dataBytes_eq h.1.2.1
  case hash => exact State.dataBytes_eq h.1
  case hmac => exact State.dataBytes_eq h.2.1.1
  all_goals exact absurd rfl hmode

/-- Settles O47: the checks pass, and the search for an unwritten byte finds the address. -/
theorem unwrittenDataStopsAModeCommand : Obligations.UnwrittenDataStopsAModeCommand := by
  intro i s a hmode hpass ha hnone hbefore
  refine exec_stopped (commandChecks_none.2 hpass) ((if_neg hmode).trans ?_)
  rw [← State.dataBytes_of_checksPass hmode hpass]
  exact Memory.firstUnwritten_eq_some ha hnone hbefore

end Sys2Proof.Machine
end

section
/-! The obligation that a command depends on nothing but its reads: states that agree on them pass the same checks, find
the same data and compute the same result. -/

namespace Sys2Proof.Machine

/-! ### What a command reads of the data -/

/-- Two memories that agree at an address agree there after the same bytes are written to both. -/
theorem Memory.read_writeBytes_congr {m m' : Memory} {x : Nat} (h : m.read x = m'.read x) (a : Nat) (vs : List Byte) :
    (m.writeBytes a vs).read x = (m'.writeBytes a vs).read x := by
  induction vs generalizing m m' a with
  | nil => exact h
  | cons v vs ih =>
    apply ih
    rw [Memory.read_write, Memory.read_write, h]

theorem State.SameData.dataBlocks_eq {s t : State} (h : s.SameData t) : s.dataBlocks = t.dataBlocks := by
  rw [State.dataBlocks, State.dataBlocks, h.1]

/-- The bytes of the data blocks are among the data bytes. -/
theorem State.SameData.read_eq {s t : State} (h : s.SameData t) {k : Nat} (hk : k < 12 * s.dataBlocks) :
    s.dbuf.read (0 + k) = t.dbuf.read (0 + k) := by
  rw [Nat.zero_add]
  refine h.2 k ?_
  unfold State.dataBlocks at hk
  unfold State.dataBytes
  omega

theorem State.SameData.data_eq {s t : State} (h : s.SameData t) : s.data = t.data := by
  rw [State.data, State.data, ← h.dataBlocks_eq]
  exact Memory.readBlocks_congr fun k => h.read_eq

/-! ### What a command makes of its reads -/

theorem State.SameReads.sameData {s t : State} {i : Instr} (h : s.SameReads i t) (hmode : possibleStatuses i ≠ [.ok]) :
    s.SameData t := by
  cases i
  case ctr => exact h.2.2.2
  case ae => exact h.2.2.2
  case hash => exact h
  case hmac => exact h.2.2.2.2
  all_goals exact absurd rfl hmode

theorem State.SameReads.firstStop_eq {s t : State} {i : Instr} (h : s.SameReads i t) :
    s.firstStop i = t.firstStop i := by
  rw [State.firstStop, State.firstStop]
  split
  next => rfl
  next hmode =>
    have hdata := h.sameData hmode
    rw [← hdata.dataBlocks_eq]
    exact Memory.firstUnwritten_congr fun k => hdata.read_eq

theorem State.SameReads.commandChecks_eq {s t : State} {i : Instr} (hc : s.config = t.config) (h : s.SameReads i t) :
    s.commandChecks i = t.commandChecks i := by
  cases i
  case ctr | ae =>
    obtain ⟨hnonceLen, -, -, hlen, -⟩ := h
    simp only [State.commandChecks, ctrChecks, State.dataAligned, State.dataFits, State.dataBytes, hc, hnonceLen, hlen]
  case hash =>
    obtain ⟨hlen, -⟩ := h
    simp only [State.commandChecks, hashChecks, State.dataAligned, State.dataFits, State.dataBytes, hc, hlen]
  case hmac =>
    obtain ⟨hkeyLen, hpfxLen, -, -, hlen, -⟩ := h
    simp only [State.commandChecks, hmacChecks, State.dataAligned, State.dataFits, State.dataBytes, hc, hkeyLen, hpfxLen,
      hlen]
  all_goals rfl

/-- The optional block is read only where it is present (R192). -/
theorem State.optionalBlock_eq {s t : State} (hlen : s.pfxLen = t.pfxLen) (hpfx : s.pfxLen = 96 → s.pfx = t.pfx) :
    s.optionalBlock = t.optionalBlock := by
  rw [State.optionalBlock, State.optionalBlock, ← hlen]
  split
  next hpresent => rw [hpfx (eq_of_beq hpresent)]
  next => rfl

theorem State.SameReads.result_r {s t : State} {i : Instr} (hc : s.config = t.config) (h : s.SameReads i t)
    (hw : writesR i = true) : (s.result i).r = (t.result i).r := by
  cases i
  case gfmul => exact congrArg₂ gfMul h.1 h.2
  case gfinv => exact congrArg gfInv h
  case affine => exact congrArg₂ affine hc h
  case sbox => exact congrArg₂ sbox hc h
  all_goals cases hw

theorem State.SameReads.result_y {s t : State} {i : Instr} (hc : s.config = t.config) (h : s.SameReads i t)
    (hw : writesY i = true) : (s.result i).y = (t.result i).y := by
  cases i
  case theta => exact congrArg theta h
  case thetai => exact congrArg thetaInv h
  case perm => exact congrArg perm h
  case ksnext =>
    obtain ⟨hx, ht⟩ := h
    simp only [State.result, State.setY_y, hc, hx, ht]
  case encblk =>
    obtain ⟨hx, hkey⟩ := h
    simp only [State.result, State.setY_y, hc, hx, hkey]
  case hash => exact congrArg₂ dmHash hc h.data_eq
  case hmac =>
    obtain ⟨-, hpfxLen, hkey, hpfx, hdata⟩ := h
    simp only [State.result, State.setY_y, hc, hkey, hdata.data_eq, State.optionalBlock_eq hpfxLen hpfx]
  case ae =>
    obtain ⟨-, hkey, hnonce, hdata⟩ := h
    simp only [State.result, State.setY_y, hc, hkey, hnonce, hdata.data_eq]
  all_goals cases hw

theorem State.SameReads.result_dbuf {s t : State} {i : Instr} (hc : s.config = t.config) (h : s.SameReads i t)
    (hw : writesData i = true) {a : Nat} (ha : a < s.dataBytes) :
    (s.result i).dbuf.read a = (t.result i).dbuf.read a := by
  have himage : ctrApply s.config s.data s.key s.nonce = ctrApply t.config t.data t.key t.nonce ∧ s.SameData t := by
    cases i
    case ctr | ae =>
      obtain ⟨-, hkey, hnonce, hdata⟩ := h
      rw [hc, hkey, hnonce, hdata.data_eq]
      exact ⟨rfl, hdata⟩
    all_goals cases hw
  obtain ⟨himage, -, hread⟩ := himage
  rw [State.result_dbuf, State.result_dbuf, if_pos hw, if_pos hw, himage]
  exact Memory.read_writeBytes_congr (hread a ha) 0 _

/-! ### The obligation -/

theorem possibleStatuses_of_writesR {i : Instr} (h : writesR i = true) : possibleStatuses i = [.ok] := by
  cases i
  case gfmul | gfinv | affine | sbox => rfl
  all_goals cases h

theorem possibleStatuses_of_writesData {i : Instr} (h : writesData i = true) : possibleStatuses i ≠ [.ok] := by
  cases i
  case ctr | ae => decide
  all_goals cases h

/-- Settles O43: the same checks fail, or the same data byte stops the command, or the results agree. -/
theorem resultsDependOnlyOnReads : Obligations.ResultsDependOnlyOnReads := by
  intro i s t hc h
  have hchecks := h.commandChecks_eq hc
  have hstop := h.firstStop_eq
  have hread (hw : writesData i = true) {a : Nat} (ha : a < s.dataBytes) : s.dbuf.read a = t.dbuf.read a :=
    (h.sameData (possibleStatuses_of_writesData hw)).2 a ha
  cases hfail : firstFailure (s.commandChecks i) with
  | some code =>
    rw [exec_failed hfail, exec_failed (hchecks ▸ hfail)]
    obtain ⟨hne, hmem⟩ := commandChecks_some hfail
    refine ⟨rfl, hmem, fun hw => ?_, fun _ hok => absurd hok hne, fun hw a => hread hw, fun _ => ⟨rfl, rfl, rfl⟩⟩
    rw [possibleStatuses_of_writesR hw] at hmem
    exact absurd (List.mem_singleton.1 hmem) hne
  | none =>
    cases hs : s.firstStop i with
    | some a => rw [exec_stopped hfail hs, exec_stopped (hchecks ▸ hfail) (hstop ▸ hs)]
    | none =>
      rw [exec_completed hfail hs, exec_completed (hchecks ▸ hfail) (hstop ▸ hs)]
      exact ⟨rfl, ok_mem_possibleStatuses i, h.result_r hc, fun hw _ => h.result_y hc hw,
        fun hw a => h.result_dbuf hc hw, fun hne => absurd rfl hne⟩

end Sys2Proof.Machine
end

section
/-! The obligations on the step: its four moves, and what each of them keeps of the invariant, of the parameters and of
`ILLEGAL`. -/

namespace Sys2Proof.Machine

/-! ### The invariant -/

/-- The part of the invariant that speaks of the buffer alone: canonical form, inside the buffer (R32, R65). -/
def Memory.Fits (m : Memory) (cap : Nat) : Prop := m.wf ∧ ∀ cell ∈ m, cell.1 < cap

theorem State.inv_iff {s : State} :
    s.Inv ↔ ¬(s.flags.busy = true ∧ s.flags.done = true) ∧ (s.flags.busy = true → isCommand s.cmd = true) ∧
      s.dbuf.Fits s.config.dbufBytes := Iff.rfl

theorem Memory.fits_nil (cap : Nat) : Memory.Fits [] cap := ⟨Memory.wf_nil, fun _ h => nomatch h⟩

theorem Memory.Fits.write {m : Memory} {cap a : Nat} (h : m.Fits cap) (ha : a < cap) (v : Byte) :
    (m.write a v).Fits cap := by
  refine ⟨Memory.write_wf h.1 a v, fun cell hcell => ?_⟩
  obtain heq | hmem := Memory.mem_write hcell
  · rwa [heq]
  · exact h.2 cell hmem

theorem Memory.Fits.writeBytes {m : Memory} {cap a : Nat} {vs : List Byte} (h : m.Fits cap) (ha : a + vs.length ≤ cap) :
    (m.writeBytes a vs).Fits cap := by
  refine ⟨Memory.writeBytes_wf h.1 a vs, fun cell hcell => ?_⟩
  obtain ⟨-, hlt⟩ | hmem := Memory.mem_writeBytes hcell
  · omega
  · exact h.2 cell hmem

/-- A core that is idle meets the invariant when its buffer does. -/
theorem State.inv_of_idle {s : State} (hb : s.flags.busy = false) (hm : s.dbuf.Fits s.config.dbufBytes) : s.Inv :=
  State.inv_iff.2 ⟨by simp [hb], by simp [hb], hm⟩

theorem State.inv_resetEvent (s : State) : s.resetEvent.Inv := State.inv_of_idle rfl (Memory.fits_nil _)

/-- The data of a command whose checks pass is inside the buffer, so its result is (R65, R211). -/
theorem State.result_fits {s : State} {i : Instr} (hpass : s.ChecksPass i) (hm : s.dbuf.Fits s.config.dbufBytes) :
    (s.result i).dbuf.Fits s.config.dbufBytes := by
  rw [State.result_dbuf]
  split
  next hw =>
    have hlen : s.CtrLengthOk := by
      cases i
      case ctr | ae => exact hpass.1
      all_goals cases hw
    apply hm.writeBytes
    obtain ⟨-, -, hfits⟩ := hlen
    rw [blockBytes_length, ctrApply_length, State.data_length, State.dataBlocks]
    omega
  next => exact hm

theorem State.Inv.exec {s t : State} {i : Instr} (h : s.Inv) (hexec : exec i s = .next t) : t.Inv := by
  obtain ⟨-, -, hm⟩ := State.inv_iff.1 h
  have hc := exec_config hexec
  obtain ⟨code, -, -, rfl⟩ | ⟨hpass, rfl⟩ := exec_next hexec
  · exact State.inv_of_idle rfl hm
  · refine State.inv_of_idle rfl ?_
    rw [hc]
    exact State.result_fits hpass hm

/-- A store keeps the invariant; the core was idle. -/
theorem State.Inv.writeLoc {s : State} {l : ByteLoc} (h : s.Inv) (v : Byte) (hb : s.flags.busy = false)
    (hl : l.inside s.config.dbufBytes) : (s.writeLoc v l).Inv := by
  obtain ⟨-, -, hm⟩ := State.inv_iff.1 h
  cases l
  case cmd =>
    have hm' : (s.issue v).dbuf.Fits (s.issue v).config.dbufBytes := by simpa using hm
    cases hc : isCommand v with
    | false => exact State.inv_of_idle (by simp [State.writeLoc, hc, hb]) hm'
    | true => exact State.inv_iff.2 ⟨by simp [State.writeLoc, hc], fun _ => by simpa [State.writeLoc] using hc, hm'⟩
  case dbuf addr => exact State.inv_of_idle hb (hm.write hl v)
  all_goals exact State.inv_of_idle hb hm

/-- What a host access that is answered leaves: a reply and nothing else, a store to an idle core, or an illegal
event, with a free value for a read. -/
theorem State.access_next {s t : State} {acc : Access} (h : s.access acc = .next t) :
    (∃ v, t = s.reply v) ∨
    (∃ l v, s.flags.busy = false ∧ l.inside s.config.dbufBytes ∧ t = s.writeLoc v l) ∨
    (∃ l w, t = s.writeWordLoc w l) ∨
    (∃ v, t = (s.markIllegal.reply v).draw 1) ∨
    t = s.markIllegal := by
  obtain ⟨_, _, _, _, _, ha⟩ | ⟨_, _, v, _, _, _, ha⟩ | ⟨_, l, _, _, ha⟩ | ⟨off, l, v, _, hl, ha⟩ | ⟨_, l, w, _, _, ha⟩ |
    ⟨_, _, _, ha⟩ | ⟨_, _, _, ha⟩ | ⟨_, _, _, _, ha⟩ | ⟨_, _, _, _, ha⟩ := s.access_cases acc <;> rw [ha] at h <;> cases h
  · exact .inl ⟨.byte v, rfl⟩
  · exact .inl ⟨.word (s.readWordLoc l), rfl⟩
  · cases hb : s.flags.busy with
    | true => simp [State.writable8, hb] at hl
    | false =>
      simp only [State.writable8, hb] at hl
      exact .inr (.inl ⟨l, v, rfl, (byteLocAt_sound hl).2, rfl⟩)
  · exact .inr (.inr (.inl ⟨l, w, rfl⟩))
  · exact .inr (.inr (.inr (.inl ⟨_, rfl⟩)))
  · exact .inr (.inr (.inr (.inl ⟨_, rfl⟩)))
  · exact .inr (.inr (.inr (.inr rfl)))
  · exact .inr (.inr (.inr (.inr rfl)))

theorem State.Inv.access {s t : State} {acc : Access} (h : s.Inv) (hacc : s.access acc = .next t) : t.Inv := by
  obtain ⟨v, rfl⟩ | ⟨l, v, hb, hl, rfl⟩ | ⟨l, w, rfl⟩ | ⟨v, rfl⟩ | rfl := State.access_next hacc
  · exact h
  · exact h.writeLoc v hb hl
  · cases l <;> exact h
  · exact h
  · exact h

/-- What a step that answers leaves, with the move taken off the agenda: the host's access, the reset, the end of a
command, or nothing else changed. -/
theorem step_next {s t : State} (h : step s = .next t) :
    (∃ acc, (s.setAgenda s.agenda.tail).access acc = .next t) ∨
    (∃ s', s.popEvent = (.reset, s') ∧ t = s'.resetEvent) ∨
    (∃ i, exec i (s.setAgenda s.agenda.tail) = .next t) ∨
    t = s.setAgenda s.agenda.tail := by
  obtain ⟨acc, s', hp, hs⟩ | ⟨s', hp, hs⟩ | ⟨s', i, hp, -, -, hs⟩ | ⟨s', hp, -, hs⟩ | ⟨s', -, -, -, hs⟩ :=
    step_cases s <;> rw [hs] at h
  · exact .inl ⟨acc, State.popEvent_state hp ▸ h⟩
  · cases h
    exact .inr (.inl ⟨s', hp, rfl⟩)
  · exact .inr (.inr (.inl ⟨i, State.popEvent_state hp ▸ h⟩))
  · cases h
    exact .inr (.inr (.inr (State.popEvent_state hp)))
  · cases h

/-- Settles O58: each of the moves of `step_next` keeps the invariant. -/
theorem stepKeepsTheInvariant : Obligations.StepKeepsTheInvariant := by
  intro s t h hstep
  have hpop : (s.setAgenda s.agenda.tail).Inv := h
  obtain ⟨acc, hacc⟩ | ⟨s', -, rfl⟩ | ⟨i, hexec⟩ | rfl := step_next hstep
  · exact hpop.access hacc
  · exact s'.inv_resetEvent
  · exact hpop.exec hexec
  · exact hpop

/-- Settles O57: the core is idle and the buffer lists nothing. -/
theorem invariantHoldsAtReset : Obligations.InvariantHoldsAtReset := State.inv_of_idle rfl (Memory.fits_nil _)

/-! ### The moves of a step -/

theorem State.popEvent_of_agenda {s : State} {e : Event} {es : List Event} (h : s.agenda = e :: es) :
    s.popEvent = (e, s.setAgenda es) := by
  simp only [State.popEvent, h]

theorem State.popEvent_of_empty {s : State} (h : s.agenda = []) : s.popEvent = (.core, s) := by
  simp only [State.popEvent, h]

theorem step_host {s s' : State} {acc : Access} (hp : s.popEvent = (.host acc, s')) : step s = s'.access acc := by
  simp only [step, hp]

theorem step_reset {s s' : State} (hp : s.popEvent = (.reset, s')) : step s = .next s'.resetEvent := by
  simp only [step, hp]

theorem step_idle {s s' : State} (hp : s.popEvent = (.core, s')) (hb : s'.flags.busy = false) : step s = .next s' := by
  simp [step, hp, hb]

theorem step_busy {s s' : State} {i : Instr} (hp : s.popEvent = (.core, s')) (hb : s'.flags.busy = true)
    (hd : decodeByte s'.cmd = .ok i) : step s = exec i s' := by
  simp [step, hp, hb, State.fetch, hd]

/-- The turn of a busy core, first on the agenda. -/
theorem step_turn {s : State} {i : Instr} (es : List Event) (hb : s.flags.busy = true)
    (hd : decodeByte s.cmd = .ok i) : step (s.setAgenda (.core :: es)) = exec i (s.setAgenda es) :=
  step_busy (State.popEvent_of_agenda rfl) hb hd

/-- Settles O5: the decoded byte is the command in `CMD`, in both forms of the core's turn. -/
theorem stepRunsTheIssuedCommand : Obligations.StepRunsTheIssuedCommand := by
  intro s i rest hb hdecode
  obtain ⟨hd, -⟩ := decode_cons_eq_ok_iff.1 hdecode
  exact ⟨fun es h => step_busy (State.popEvent_of_agenda h) hb hd, fun h => step_busy (State.popEvent_of_empty h) hb hd⟩

/-- Settles O6: one lemma for each of the other moves. -/
theorem stepMakesTheNextMove : Obligations.StepMakesTheNextMove := by
  intro s es
  exact ⟨fun acc => step_host (State.popEvent_of_agenda rfl), step_reset (State.popEvent_of_agenda rfl),
    fun hb => step_idle (State.popEvent_of_agenda rfl) hb, fun hb h => step_idle (State.popEvent_of_empty h) hb⟩

/-! ### The issue of a command -/

theorem State.issue_command (s : State) (i : Instr) :
    s.issue (opcode i) = { s with cmd := opcode i, flags := s.flags.issued } := by
  simp only [State.issue, decodeByte_opcode]

/-- A core that was issued a command runs it on its next turn. -/
theorem step_issued (s : State) (i : Instr) (es : List Event) :
    step ((s.issue (opcode i)).setAgenda (.core :: es)) = exec i ((s.issue (opcode i)).setAgenda es) :=
  step_turn es (by simp) (by simp [decodeByte_opcode])

theorem isCommand_eq_false_of_forall {c : Byte} (h : ∀ i, c ≠ opcode i) : isCommand c = false := by
  rw [Bool.eq_false_iff]
  intro hc
  obtain ⟨i, hi⟩ := decodeByte_of_isCommand hc
  exact h i (decodeByte_eq_ok_iff.1 hi)

/-- A busy core drops every byte write (R77). -/
theorem State.write8_busy {s : State} (off : Word) (v : Byte) (hb : s.flags.busy = true) :
    s.access (.write8 off v) = .next s.markIllegal := by
  simp [State.access, State.writable8, hb]

/-- Settles O4: the issue of a command and of a reserved code, and the dropped write. -/
theorem issueByWriteToCmd : Obligations.IssueByWriteToCmd := by
  refine fun s c => ⟨?_, fun i t h => ?_, fun hb hc => ?_, State.write8_busy 0x0000 c⟩
  · rintro i hb rfl
    rw [State.write_cmd_idle _ hb, State.issue_command]
    refine ⟨rfl, fun es => ?_⟩
    have hstep := step_issued s i es
    rwa [State.issue_command] at hstep
  · obtain ⟨hflags, -⟩ := exec_next_flags h
    rw [hflags]
    exact ⟨rfl, rfl⟩
  · rw [State.write_cmd_idle c hb, s.issue_reserved (isCommand_eq_false_of_forall hc)]
    rfl

/-- Settles O7: the placement issues the code and gives the core the next turn. -/
theorem placedCommandRunsNext : Obligations.PlacedCommandRunsNext := by
  intro s i
  rw [State.withFetchWord, tableByte_opcode, State.placeCommand, step_issued, State.issue_command]
  rfl

/-! ### The reset, the parameters, `ILLEGAL` -/

theorem Flags.toByte_clear : Flags.toByte ⟨false, false, false⟩ = 0 := rfl

/-- Settles O55: the fields of the reset event. -/
theorem resetFromAnyState : Obligations.ResetFromAnyState := by
  intro s es h
  refine ⟨_, step_reset (State.popEvent_of_agenda h), rfl, rfl, Flags.toByte_clear, rfl, rfl, rfl, rfl, rfl,
    rfl, rfl, rfl, rfl, fun j hj => ?_, fun j hj => ?_, rfl, fun _ => rfl, rfl, rfl, rfl⟩
  · simp
  · simp

theorem State.access_config {s t : State} {acc : Access} (h : s.access acc = .next t) : t.config = s.config := by
  obtain ⟨v, rfl⟩ | ⟨l, v, -, -, rfl⟩ | ⟨l, w, rfl⟩ | ⟨v, rfl⟩ | rfl := State.access_next h
  · rfl
  · exact s.writeLoc_config v l
  · exact s.writeWordLoc_config w l
  · rfl
  · rfl

/-- Settles O56: no move of a step writes the parameters. -/
theorem parametersNeverChange : Obligations.ParametersNeverChange := by
  intro s t hstep
  obtain ⟨acc, hacc⟩ | ⟨s', hp, rfl⟩ | ⟨i, hexec⟩ | rfl := step_next hstep
  · exact (State.access_config hacc).trans (s.setAgenda_config _)
  · rw [State.popEvent_state hp, State.resetEvent_config, State.setAgenda_config]
  · exact (exec_config hexec).trans (s.setAgenda_config _)
  · rfl

/-- A store leaves `ILLEGAL` or sets it. -/
theorem State.writeLoc_illegal {s : State} (v : Byte) (l : ByteLoc) (h : s.flags.illegal = true) :
    (s.writeLoc v l).flags.illegal = true := by
  cases l
  case cmd => cases hc : isCommand v <;> simp [State.writeLoc, hc, h]
  case flags | status | r | y => rfl
  all_goals exact h

theorem State.access_illegal {s t : State} {acc : Access} (hacc : s.access acc = .next t) (h : s.flags.illegal = true) :
    t.flags.illegal = true := by
  obtain ⟨v, rfl⟩ | ⟨l, v, -, -, rfl⟩ | ⟨l, w, rfl⟩ | ⟨v, rfl⟩ | rfl := State.access_next hacc
  · exact h
  · exact State.writeLoc_illegal v l h
  · cases l <;> exact h
  · rfl
  · rfl

theorem exec_illegal {i : Instr} {s t : State} (h : exec i s = .next t) : t.flags.illegal = s.flags.illegal := by
  obtain ⟨hflags, -⟩ := exec_next_flags h
  rw [hflags, Flags.completed_illegal]

/-- Settles O53: only the reset writes 0 to `ILLEGAL`. -/
theorem onlyResetClearsIllegal : Obligations.OnlyResetClearsIllegal := by
  intro s t hstep
  constructor
  · intro hnoReset h
    obtain ⟨acc, hacc⟩ | ⟨s', hp, -⟩ | ⟨i, hexec⟩ | rfl := step_next hstep
    · exact State.access_illegal hacc h
    · exact absurd hp (hnoReset s')
    · exact (exec_illegal hexec).trans h
    · exact h
  · intro s' hp
    rw [step_reset hp] at hstep
    cases hstep
    rfl

end Sys2Proof.Machine
end

section
/-! The obligations on the host's side: the accesses of an idle core, listed and forbidden, and the busy window, whose
accesses leave everything but `ILLEGAL`, the replies and the count of free values. -/

namespace Sys2Proof.Machine

/-! ### Accesses at the offset of a location -/

theorem byteLocAt_ofNat {cap n : Nat} {l : ByteLoc} (hl : l.inside cap) (hn : l.offset = n) (hlt : n < 2 ^ 32) :
    byteLocAt cap (BitVec.ofNat 32 n).toNat = some l := by
  rw [BitVec.toNat_ofNat, Nat.mod_eq_of_lt hlt, ← hn, byteLocAt_offset hl]

theorem State.readable8_idle {s : State} (off : Word) (hb : s.flags.busy = false) :
    s.readable8 off = byteLocAt s.config.dbufBytes off.toNat := by
  cases h : byteLocAt s.config.dbufBytes off.toNat <;> simp [State.readable8, h, hb]

theorem State.read8_at {s : State} {n : Nat} {l : ByteLoc} {v : Byte} (hb : s.flags.busy = false)
    (hl : l.inside s.config.dbufBytes) (hn : l.offset = n) (hlt : n < 2 ^ 32) (hv : s.readLoc l = .ok v) :
    s.access (.read8 (BitVec.ofNat 32 n)) = .next (s.reply (.byte v)) :=
  State.read8_idle hb (byteLocAt_ofNat hl hn hlt) hv

theorem State.write8_at {s : State} {n : Nat} {l : ByteLoc} (v : Byte) (hb : s.flags.busy = false)
    (hl : l.inside s.config.dbufBytes) (hn : l.offset = n) (hlt : n < 2 ^ 32) :
    s.access (.write8 (BitVec.ofNat 32 n) v) = .next (s.writeLoc v l) :=
  State.write8_idle v hb (byteLocAt_ofNat hl hn hlt)

theorem State.readLoc_dbuf_written {s : State} {a : Nat} {v : Byte} (h : s.dbuf.read a = some v) :
    s.readLoc (.dbuf a) = .ok v := by
  simp only [State.readLoc, h]

theorem State.readLoc_dbuf_unwritten {s : State} {a : Nat} (h : s.dbuf.read a = none) :
    s.readLoc (.dbuf a) = .error (.unwrittenData a) := by
  simp only [State.readLoc, h]

/-- A listed offset is that of a location. -/
theorem exists_byteLocAt {cap o : Nat} (h : ByteOffset cap o) :
    ∃ l, byteLocAt cap o = some l ∧ l.offset = o ∧ l.inside cap := by
  obtain ⟨l, hl⟩ := Option.ne_none_iff_exists'.1 fun hnone => byteLocAt_none.1 hnone h
  exact ⟨l, hl, byteLocAt_sound hl⟩

theorem exists_wordLocAt {o : Nat} (h : WordOffset o) : ∃ l, wordLocAt o = some l :=
  Option.ne_none_iff_exists'.1 fun hnone => wordLocAt_none.1 hnone h

theorem ReadOnlyOffset.byteOffset {cap o : Nat} (h : ReadOnlyOffset o) : ByteOffset cap o := by
  unfold ReadOnlyOffset at h
  unfold ByteOffset
  omega

/-- A write to a read-only location changes no location (R72). -/
theorem State.writeLoc_readOnly (s : State) (v : Byte) {l : ByteLoc} (h : ReadOnlyOffset l.offset) :
    s.writeLoc v l = s.markIllegal := by
  cases l
  case flags | status | r | y => rfl
  all_goals
    simp only [ReadOnlyOffset, ByteLoc.offset] at h
    omega

theorem State.write8_readOnly {s : State} {off : Word} (v : Byte) (hb : s.flags.busy = false)
    (h : ReadOnlyOffset off.toNat) : s.access (.write8 off v) = .next s.markIllegal := by
  obtain ⟨l, hl, hoff, -⟩ := exists_byteLocAt (cap := s.config.dbufBytes) h.byteOffset
  rw [State.write8_idle v hb hl, s.writeLoc_readOnly v (hoff ▸ h)]

/-! ### The bits of `FLAGS` -/

theorem Flags.toByte_getLsbD (f : Flags) (i : Fin 8) : f.toByte.getLsbD i =
    if i = 0 then f.busy else if i = 1 then f.done else if i = 2 then f.illegal else false :=
  byteOfBits_getLsbD _ i

theorem Flags.toByte_getLsbD_high (f : Flags) {k : Nat} (hk : 3 ≤ k) : f.toByte.getLsbD k = false := by
  by_cases hlt : k < 8
  · have hbit := f.toByte_getLsbD ⟨k, hlt⟩
    rwa [if_neg (by simp [Fin.ext_iff]; omega), if_neg (by simp [Fin.ext_iff]; omega),
      if_neg (by simp [Fin.ext_iff]; omega)] at hbit
  · exact f.toByte.getLsbD_of_ge k (by omega)

/-! ### The obligations on the listed offsets -/

/-- Settles O48: each listed offset is that of its location, and an access reads or writes that location. -/
theorem accessByTheAddressMap : Obligations.AccessByTheAddressMap := by
  refine ⟨fun s hb => ?_, fun s v w hb => ?_, fun f => ?_⟩
  · refine ⟨State.read8_idle (l := .cmd) hb rfl rfl, State.read8_idle (l := .flags) hb rfl rfl,
      State.read8_idle (l := .status) hb rfl rfl, State.read8_idle (l := .t) hb rfl rfl,
      State.read8_idle (l := .a) hb rfl rfl, State.read8_idle (l := .b) hb rfl rfl,
      State.read8_idle (l := .r) hb rfl rfl, State.read32_idle (l := .dataLen) hb rfl,
      State.read32_idle (l := .keyLen) hb rfl, State.read32_idle (l := .nonceLen) hb rfl,
      State.read32_idle (l := .pfxLen) hb rfl, fun j hj => ⟨?_, ?_, ?_, ?_⟩, fun j hj => ?_, fun a v ha hlt hv => ?_⟩
    · exact State.read8_at (l := .key ⟨j, hj⟩) hb trivial rfl (by omega) rfl
    · exact State.read8_at (l := .pfx ⟨j, hj⟩) hb trivial rfl (by omega) rfl
    · exact State.read8_at (l := .x ⟨j, hj⟩) hb trivial rfl (by omega) rfl
    · exact State.read8_at (l := .y ⟨j, hj⟩) hb trivial rfl (by omega) rfl
    · exact State.read8_at (l := .nonce ⟨j, hj⟩) hb trivial rfl (by omega) rfl
    · exact State.read8_at (l := .dbuf a) hb ha rfl hlt (State.readLoc_dbuf_written hv)
  · refine ⟨State.write8_idle (l := .cmd) v hb rfl, State.write8_idle (l := .t) v hb rfl,
      State.write8_idle (l := .a) v hb rfl, State.write8_idle (l := .b) v hb rfl,
      State.write32_idle (l := .dataLen) w hb rfl, State.write32_idle (l := .keyLen) w hb rfl,
      State.write32_idle (l := .nonceLen) w hb rfl, State.write32_idle (l := .pfxLen) w hb rfl,
      fun j hj => ⟨?_, ?_, ?_⟩, fun j hj => ?_, fun a ha hlt => ?_, fun off hoff => State.write8_readOnly v hb hoff⟩
    · exact State.write8_at (l := .key ⟨j, hj⟩) v hb trivial rfl (by omega)
    · exact State.write8_at (l := .pfx ⟨j, hj⟩) v hb trivial rfl (by omega)
    · exact State.write8_at (l := .x ⟨j, hj⟩) v hb trivial rfl (by omega)
    · exact State.write8_at (l := .nonce ⟨j, hj⟩) v hb trivial rfl (by omega)
    · exact ⟨s.dbuf.write a v, State.write8_at (l := .dbuf a) v hb ha rfl hlt, s.dbuf.read_write_same a v,
        fun z hz => s.dbuf.read_write_other v hz⟩
  · exact ⟨f.toByte_getLsbD 0, f.toByte_getLsbD 1, f.toByte_getLsbD 2, fun k => f.toByte_getLsbD_high⟩

/-- Settles O60: the location is the unwritten byte, whose read stops. -/
theorem hostReadOfAnUnwrittenByteStops : Obligations.HostReadOfAnUnwrittenByteStops := by
  intro s a hb ha hlt hnone
  exact State.read8_idle_fault (l := .dbuf a) hb (byteLocAt_ofNat ha rfl hlt) (State.readLoc_dbuf_unwritten hnone)

/-! ### Forbidden accesses -/

theorem State.read8_forbidden {s : State} {off : Word} (h : s.readable8 off = none) :
    s.access (.read8 off) = .next s.forbiddenRead8 := by
  simp only [State.access, h]

theorem State.read32_forbidden {s : State} {off : Word} (h : s.reachable32 off = none) :
    s.access (.read32 off) = .next s.forbiddenRead32 := by
  simp only [State.access, h]

theorem State.write8_forbidden {s : State} {off : Word} (v : Byte) (h : s.writable8 off = none) :
    s.access (.write8 off v) = .next s.markIllegal := by
  simp only [State.access, h]

theorem State.write32_forbidden {s : State} {off : Word} (w : Word) (h : s.reachable32 off = none) :
    s.access (.write32 off w) = .next s.markIllegal := by
  simp only [State.access, h]

/-- Settles O49: no location stands at the offset, or a read-only one. -/
theorem forbiddenAccessOnlySetsIllegal : Obligations.ForbiddenAccessOnlySetsIllegal := by
  intro s off hb
  have hnone (h : ¬ByteOffset s.config.dbufBytes off.toNat) := byteLocAt_none.2 h
  refine ⟨?_, fun h => ?_, fun h => ?_⟩
  · rintro (h | h) v
    · exact State.write8_readOnly v hb h
    · exact State.write8_forbidden v (by simp [State.writable8, hnone h])
  · exact State.read8_forbidden (by simp [State.readable8, hnone h])
  · have hreach : s.reachable32 off = none := by simp [State.reachable32, wordLocAt_none.2 h]
    exact ⟨fun w => State.write32_forbidden w hreach, State.read32_forbidden hreach⟩

/-! ### Reading back -/

theorem ByteLoc.y_readOnly (j : Fin 12) : ReadOnlyOffset (ByteLoc.y j).offset := by
  simp only [ReadOnlyOffset, ByteLoc.offset]
  omega

theorem State.writeLoc_flags {s : State} {v : Byte} {l : ByteLoc} (h : ¬ReadOnlyOffset l.offset) (hc : l ≠ .cmd) :
    (s.writeLoc v l).flags = s.flags := by
  cases l
  case cmd => exact absurd rfl hc
  case flags | status | r => simp [ReadOnlyOffset, ByteLoc.offset] at h
  case y j => exact absurd (ByteLoc.y_readOnly j) h
  all_goals rfl

/-- A store leaves what another location reads as. -/
theorem State.readLoc_writeLoc_other {s : State} {v : Byte} {l l' : ByteLoc} (h : ¬ReadOnlyOffset l.offset)
    (hc : l ≠ .cmd) (hne : l' ≠ l) : (s.writeLoc v l).readLoc l' = s.readLoc l' := by
  cases l
  case cmd => exact absurd rfl hc
  case flags | status | r => simp [ReadOnlyOffset, ByteLoc.offset] at h
  case y j => exact absurd (ByteLoc.y_readOnly j) h
  case t | a | b =>
    cases l' <;> simp [State.writeLoc, State.readLoc] at hne ⊢
  case key j | nonce j | pfx j | x j =>
    -- In one register, another location is a byte of another index.
    cases l' <;> simp_all [State.writeLoc, State.readLoc, Fin.ext_iff, eq_comm]
  case dbuf a =>
    cases l'
    case dbuf a' => simp only [State.writeLoc, State.readLoc, s.dbuf.read_write_other v fun h => hne (congrArg _ h)]
    all_goals rfl

/-- An answered byte read is that of a readable location: a forbidden one draws a free value. -/
theorem State.readLoc_of_read8 {s : State} {off : Word} {b : Byte}
    (h : s.access (.read8 off) = .next (s.reply (.byte b))) :
    ∃ l, s.readable8 off = some l ∧ s.readLoc l = .ok b := by
  cases hl : s.readable8 off with
  | none =>
    rw [State.read8_forbidden hl] at h
    have hcount := congrArg State.freeCount (Host.Outcome.next.inj h)
    simp [State.forbiddenRead8, State.draw, State.reply] at hcount
  | some l =>
    refine ⟨l, rfl, ?_⟩
    cases hv : s.readLoc l with
    | error f => simp [State.access, hl, hv] at h
    | ok v => simpa [State.access, hl, hv, State.reply] using h

theorem State.readWordLoc_writeWordLoc_same (s : State) (w : Word) (l : WordLoc) :
    (s.writeWordLoc w l).readWordLoc l = w := by
  cases l <;> rfl

/-- Settles O50: the read finds the same location; another offset is another location. -/
theorem hostReadReturnsTheLastWrite : Obligations.HostReadReturnsTheLastWrite := by
  constructor
  · intro s off v hb hlisted hwritable hcmd
    obtain ⟨l, hl, hoff, hin⟩ := exists_byteLocAt hlisted
    have hro : ¬ReadOnlyOffset l.offset := hoff ▸ hwritable
    have hc : l ≠ .cmd := by
      rintro rfl
      exact hcmd (BitVec.eq_of_toNat_eq hoff.symm)
    have hb' : (s.writeLoc v l).flags.busy = false := by rw [State.writeLoc_flags hro hc, hb]
    refine ⟨s.writeLoc v l, State.write8_idle v hb hl,
      State.read8_idle hb' (by rwa [State.writeLoc_config]) (State.readLoc_writeLoc_same hro hc), fun off' b hne h => ?_⟩
    obtain ⟨l', hl', hread⟩ := State.readLoc_of_read8 h
    rw [State.readable8_idle off' hb] at hl'
    have hother : l' ≠ l := by
      rintro rfl
      exact hne (BitVec.eq_of_toNat_eq ((byteLocAt_sound hl').1.symm.trans hoff))
    refine State.read8_idle hb' (by rwa [State.writeLoc_config]) ?_
    rw [State.readLoc_writeLoc_other hro hc hother, hread]
  · intro s off w hb hlisted
    obtain ⟨l, hl⟩ := exists_wordLocAt hlisted
    have hread : (s.writeWordLoc w l).access (.read32 off) =
        .next ((s.writeWordLoc w l).reply (.word ((s.writeWordLoc w l).readWordLoc l))) :=
      State.read32_idle (by cases l <;> exact hb) hl
    rw [State.readWordLoc_writeWordLoc_same] at hread
    exact ⟨s.writeWordLoc w l, State.write32_idle w hb hl, hread⟩

/-! ### The busy window -/

/-- The state with these values of what the host's accesses to a busy core change. -/
def State.withHost (s : State) (ill : Bool) (rs : List Reply) (n : Nat) : State :=
  { s with flags := { s.flags with illegal := ill }, replies := rs, freeCount := n }

theorem State.readable8_busy {s : State} {off : Word} (hb : s.flags.busy = true) (hoff : off ≠ 0x0001) :
    s.readable8 off = none := by
  cases h : byteLocAt s.config.dbufBytes off.toNat with
  | none => simp only [State.readable8, h]
  | some l =>
    have hl : l ≠ .flags := by
      rintro rfl
      exact hoff (BitVec.eq_of_toNat_eq (byteLocAt_sound h).1.symm)
    simp [State.readable8, h, hb, hl]

theorem State.reachable32_busy {s : State} (off : Word) (hb : s.flags.busy = true) : s.reachable32 off = none := by
  simp [State.reachable32, hb]

/-- `FLAGS` can be read at any time (R76). -/
theorem State.read8_flags (s : State) : s.access (.read8 0x0001) = .next (s.reply (.byte s.flags.toByte)) := by
  have hl : byteLocAt s.config.dbufBytes (0x0001 : Word).toNat = some .flags := rfl
  have hread : s.readable8 0x0001 = some .flags := by
    rw [State.readable8, hl]
    simp
  simp only [State.access, hread, State.readLoc]

/-- An access to a busy core changes nothing else, and sets `ILLEGAL` unless it is a read of `FLAGS` (R77). -/
theorem State.access_busy {s : State} (acc : Access) (hb : s.flags.busy = true) :
    ∃ rs n, s.access acc = .next (s.withHost (s.flags.illegal || acc != .read8 0x0001) rs n) := by
  by_cases hacc : acc = .read8 0x0001
  · subst hacc
    rw [bne_self_eq_false, Bool.or_false, State.read8_flags]
    exact ⟨.byte s.flags.toByte :: s.replies, s.freeCount, rfl⟩
  · rw [bne_iff_ne.2 hacc, Bool.or_true]
    cases acc with
    | read8 off =>
      have hoff : off ≠ 0x0001 := fun h => hacc (congrArg Access.read8 h)
      exact ⟨.byte (Config.freeByte s.freeCount) :: s.replies, s.freeCount + 1,
        State.read8_forbidden (State.readable8_busy hb hoff)⟩
    | read32 off =>
      exact ⟨.word (Config.freeWord s.freeCount) :: s.replies, s.freeCount + 1,
        State.read32_forbidden (State.reachable32_busy off hb)⟩
    | write8 off v => exact ⟨s.replies, s.freeCount, State.write8_busy off v hb⟩
    | write32 off w => exact ⟨s.replies, s.freeCount, State.write32_forbidden w (State.reachable32_busy off hb)⟩

/-- A command computes the same whatever the host's accesses have changed. -/
theorem exec_withHost {i : Instr} {s t : State} (h : exec i s = .next t) (ill : Bool) (rs : List Reply) (n : Nat) :
    exec i (s.withHost ill rs n) = .next (t.withHost ill rs n) := by
  have hchecks : (s.withHost ill rs n).commandChecks i = s.commandChecks i := by cases i <;> rfl
  have hstop : (s.withHost ill rs n).firstStop i = s.firstStop i := rfl
  have hresult : (s.withHost ill rs n).result i = (s.result i).withHost ill rs n := by cases i <;> rfl
  obtain ⟨code, hfail, hexec⟩ | ⟨-, _, -, hexec⟩ | ⟨hpass, hnone, hexec⟩ := exec_cases i s <;> rw [hexec] at h <;> cases h
  · exact exec_failed (hchecks ▸ hfail)
  · exact (exec_completed (hchecks ▸ hpass) (hstop ▸ hnone)).trans (by rw [hresult]; rfl)

theorem step_turn_withHost {i : Instr} {s t : State} (es : List Event) (hb : s.flags.busy = true)
    (hd : decodeByte s.cmd = .ok i) (h : exec i (s.setAgenda es) = .next t) (ill : Bool) (rs : List Reply) (n : Nat) :
    step ((s.withHost ill rs n).setAgenda (.core :: es)) = .next (t.withHost ill rs n) :=
  (step_turn (s := s.withHost ill rs n) es hb hd).trans (exec_withHost h ill rs n)

theorem runSteps_succ {s t : State} (n : Nat) (h : step s = .next t) : runSteps (n + 1) s = runSteps n t := by
  simp only [runSteps, h]

/-- The host's moves before the core's turn lead to the same turn, on a state that differs by what they change. -/
theorem runSteps_busyWindow {s : State} (accs : List Access) (es : List Event) (hb : s.flags.busy = true) :
    ∃ rs n, runSteps (accs.length + 1) (s.setAgenda (accs.map Event.host ++ .core :: es)) =
      runSteps 1 ((s.withHost (s.flags.illegal || accs.any (· != .read8 0x0001)) rs n).setAgenda (.core :: es)) := by
  induction accs generalizing s with
  | nil =>
    rw [List.any_nil, Bool.or_false]
    exact ⟨s.replies, s.freeCount, rfl⟩
  | cons acc accs ih =>
    obtain ⟨rs, n, hacc⟩ := State.access_busy (s := s.setAgenda (accs.map Event.host ++ .core :: es)) acc hb
    have hstep : step (s.setAgenda ((acc :: accs).map Event.host ++ .core :: es)) = _ :=
      (step_host (State.popEvent_of_agenda rfl)).trans hacc
    obtain ⟨rs', n', hrun⟩ := ih (s := s.withHost (s.flags.illegal || acc != .read8 0x0001) rs n) hb
    refine ⟨rs', n', (runSteps_succ _ hstep).trans (hrun.trans ?_)⟩
    rw [List.any_cons, ← Bool.or_assoc]
    rfl

/-- Settles O51: each access of the window by `State.access_busy`, and the command on the state they leave. -/
theorem busyWindowDoesNotDisturbTheCommand : Obligations.BusyWindowDoesNotDisturbTheCommand := by
  constructor
  · intro s hb
    have h32 (off : Word) := State.reachable32_busy off hb
    exact ⟨s.read8_flags, fun off hoff => State.read8_forbidden (State.readable8_busy hb hoff),
      fun off => State.read32_forbidden (h32 off), fun off v => State.write8_busy off v hb,
      fun off w => State.write32_forbidden w (h32 off)⟩
  · intro s t i accs es hb hd hexec
    obtain ⟨rs, n, hrun⟩ := runSteps_busyWindow accs es hb
    exact ⟨_, hrun.trans (runSteps_succ 0 (step_turn_withHost es hb hd hexec _ rs n)), rfl, rfl⟩

end Sys2Proof.Machine
end

section
/-! The obligations on the field laws and on the S-box as a bijection. -/

namespace Sys2Proof

/-! ### The inverse (R114, R116) -/

/-- `gf_inv` gives an inverse: all 256 bytes, with the table of inverses. -/
theorem gfMul_gfInv {v : Byte} (h : v ≠ 0) : gfMul v (gfInv v) = 1 := by
  have hall : ∀ u : Fin 256, u ≠ 0 → gfMul (.ofFin u) (lookupByte gfInvRows (.ofFin u)) = 1 := by decide +kernel
  rw [gfInv_table]
  exact hall v.toFin fun hzero => h (BitVec.eq_of_toFin_eq hzero)

theorem gfInv_gfMul_cancel {v : Byte} (h : v ≠ 0) (x : Byte) : gfMul (gfInv v) (gfMul v x) = x := by
  rw [← gfMul_assoc, gfMul_comm (gfInv v), gfMul_gfInv h]
  exact gfMul_one_left x

/-- A byte other than 0 can be cancelled, so there is one inverse (R114). -/
theorem gfMul_eq_one_iff {v : Byte} (h : v ≠ 0) (x : Byte) : gfMul v x = 1 ↔ x = gfInv v := by
  constructor
  · intro hx
    rw [← gfInv_gfMul_cancel h x, hx]
    exact gfMul_one_right _
  · rintro rfl
    exact gfMul_gfInv h

theorem gfMul_eq_zero {a b : Byte} (h : gfMul a b = 0) : a = 0 ∨ b = 0 := by
  by_contra hne
  obtain ⟨ha, hb⟩ := not_or.1 hne
  have hcancel := gfInv_gfMul_cancel ha b
  rw [h] at hcancel
  exact hb (hcancel.symm.trans (gfMul_zero_right _))

theorem gfInv_ne_zero {v : Byte} (h : v ≠ 0) : gfInv v ≠ 0 := by
  intro hzero
  have hone := gfMul_gfInv h
  rw [hzero] at hone
  cases (gfMul_zero_right v).symm.trans hone

/-- The inverse of the inverse: `v` is an inverse of `gf_inv(v)`, and there is one. -/
theorem gfInv_involutive : Function.Involutive gfInv := by
  intro v
  by_cases h : v = 0
  · subst h
    rfl
  · exact ((gfMul_eq_one_iff (gfInv_ne_zero h) v).1 ((gfMul_comm _ _).trans (gfMul_gfInv h))).symm

/-- Doubling: a shift, and the modulus where the shift leaves the byte (R113). -/
theorem gfMul_two (a : Byte) : gfMul a 2 = if a.getLsbD 7 then (a <<< 1) ^^^ 0x1B else a <<< 1 := by
  have hall : ∀ u : Fin (2 ^ 8), gfMul (.ofFin u) 2 =
      if (BitVec.ofFin u).getLsbD 7 then (BitVec.ofFin u <<< 1) ^^^ 0x1B else BitVec.ofFin u <<< 1 := by decide +kernel
  exact hall a.toFin

/-- Settles O9: the laws of the polynomial product; no zero divisors because of the inverse. -/
theorem gfMulFieldLaws : Obligations.GfMulFieldLaws := fun a b c =>
  ⟨gfMul_comm a b, gfMul_zero_right a, gfMul_one_right a, gfMul_assoc a b c, gfMul_xor_right a b c, gfMul_eq_zero,
    gfMul_two a⟩

/-- Settles O11: 0 by definition, and the one inverse of every other byte. -/
theorem gfInvIsTheInverse : Obligations.GfInvIsTheInverse := ⟨gfInv_zero, fun _ x h => gfMul_eq_one_iff h x⟩

/-- Settles O12: the inverse is an involution, so a bijection. -/
theorem gfInvLaws : Obligations.GfInvLaws :=
  ⟨gfInv_zero, gfInv_one, fun _ => gfMul_gfInv, gfInv_involutive, gfInv_involutive.bijective⟩

/-! ### The S-box (R125) -/

/-- The linear map is injective exactly when only 0 goes to 0. -/
theorem gf2Linear_injective_iff (rows : Vector Byte 8) :
    Function.Injective (gf2Linear rows) ↔ ∀ v, gf2Linear rows v = 0 → v = 0 := by
  constructor
  · intro h v hv
    exact h (hv.trans (gf2Linear_zero rows).symm)
  · intro h v w hvw
    refine BitVec.xor_eq_zero_iff.1 (h _ ?_)
    rw [gf2Linear_xor, hvw]
    exact BitVec.xor_self

theorem matrixInvertible_iff (c : Config) : c.MatrixInvertible ↔ ∀ v, gf2Linear c.affRow v = 0 → v = 0 := by
  constructor
  · intro h v hv
    exact BitVec.eq_of_toFin_eq (h v.toFin hv)
  · intro h v hv
    exact congrArg BitVec.toFin (h (.ofFin v) hv)

/-- The S-box is the linear map between two bijections, the inverse and the constant's XOR. -/
theorem sbox_bijective_iff (c : Config) : Function.Bijective (sbox c) ↔ c.MatrixInvertible := by
  have hxor : Function.Involutive fun v : Byte => v ^^^ c.affC := fun v => by
    simp only [BitVec.xor_assoc, BitVec.xor_self, BitVec.xor_zero]
  have hsbox : sbox c = (fun v => v ^^^ c.affC) ∘ gf2Linear c.affRow ∘ gfInv := rfl
  rw [matrixInvertible_iff, ← gf2Linear_injective_iff, hsbox, hxor.bijective.of_comp_iff',
    Function.Bijective.of_comp_iff _ gfInv_involutive.bijective, Finite.injective_iff_bijective]

theorem reference_matrixInvertible : Config.reference.MatrixInvertible := by decide +kernel

/-- Settles O16: the linear map decides, and the reference matrix has a trivial kernel. -/
theorem sboxBijectiveExactlyWhenInvertible : Obligations.SboxBijectiveExactlyWhenInvertible :=
  ⟨sbox_bijective_iff, reference_matrixInvertible⟩

end Sys2Proof
end

section
/-! The obligations on the inverse diffusion and on the permutation: the equivalent form of the matrices, the
independence of groups and bytes, and the inverse gather list. -/

namespace Sys2Proof

/-! ### The diffusion layer -/

/-- Settles O19: the meaning of THETAI, the rows of its matrix, and a group or a block of equal bytes. -/
theorem thetaiResult : Obligations.ThetaiResult := by
  refine ⟨fun s => ⟨thetaInv s.x, Machine.exec_thetai s, ?_⟩, mixGroups_const 246 247 0⟩
  intro g hg
  obtain ⟨h0, h1, h2⟩ := mixGroups_rows 246 247 s.x hg
  exact ⟨h0, h1, h2, fun _ ha0 ha1 ha2 _ hr => mixGroups_equal_bytes 246 247 hg ha0 ha1 ha2 hr⟩

/-- Coefficients that differ by 1 leave the byte itself, plus `o` times the sum of its group (R131, R133). -/
theorem mixGroups_getElem_of_xor_one {d o : Byte} (h : d ^^^ o = 1#8) (x : Block) {g r : Nat} (hg : g < 4) (hr : r < 3) :
    (mixGroups d o x)[3 * g + r] = x[3 * g + r] ^^^ gfMul o (groupSum x g hg) := by
  rw [mixGroups_getElem d o x hg hr, h, gfMul_one_left]

/-- A group of the output depends on the same group of the input only (R136). -/
theorem mixGroups_group_congr (d o : Byte) {x z : Block} {g : Nat} (hg : g < 4) (h0 : x[3 * g] = z[3 * g])
    (h1 : x[3 * g + 1] = z[3 * g + 1]) (h2 : x[3 * g + 2] = z[3 * g + 2]) {r : Nat} (hr : r < 3) :
    (mixGroups d o x)[3 * g + r] = (mixGroups d o z)[3 * g + r] := by
  have hsum : groupSum x g hg = groupSum z g hg := by rw [groupSum, groupSum, h0, h1, h2]
  have hbyte : x[3 * g + r] = z[3 * g + r] := by
    interval_cases r
    · exact h0
    · exact h1
    · exact h2
  rw [mixGroups_getElem d o x hg hr, mixGroups_getElem d o z hg hr, hbyte, hsum]

/-- Settles O21: the equivalent form for coefficients that differ by 1, and the layers byte by byte or group by group. -/
theorem diffusionEquivalentFormAndLanes : Obligations.DiffusionEquivalentFormAndLanes := by
  refine ⟨fun x g hg r hr => ⟨mixGroups_getElem_of_xor_one rfl x hg hr, mixGroups_getElem_of_xor_one rfl x hg hr⟩,
    by decide, fun x z => ⟨fun g hg h0 h1 h2 r hr => ?_, fun c i hi => ?_⟩⟩
  · exact ⟨mixGroups_group_congr 3 2 hg h0 h1 h2 hr, mixGroups_group_congr 246 247 hg h0 h1 h2 hr⟩
  · exact ⟨sboxBlock_getElem c x i hi, Block.xor_getElem x z i hi⟩

/-! ### The permutation layer (R142) -/

/-- The inverse of `perm`, by the inverse gather list of R142. -/
def permInv (y : Block) : Block := #v[y[0], y[4], y[8], y[3], y[7], y[11], y[6], y[10], y[2], y[9], y[1], y[5]]

theorem permInv_perm : Function.LeftInverse permInv perm := by
  intro x
  apply Block.ext_get
  intro i
  fin_cases i <;> rfl

theorem perm_permInv : Function.LeftInverse perm permInv := by
  intro y
  apply Block.ext_get
  intro i
  fin_cases i <;> rfl

theorem perm_bijective : Function.Bijective perm := ⟨permInv_perm.injective, perm_permInv.surjective⟩

theorem perm_xor (x z : Block) : perm (x.xor z) = (perm x).xor (perm z) :=
  Vector.ext fun i hi => by simp

theorem perm_sboxBlock (c : Config) (x : Block) : perm (sboxBlock c x) = sboxBlock c (perm x) :=
  Vector.ext fun i hi => by simp

/-- Settles O23: the twelve entries of the gather list, its inverse, and a layer that moves bytes alone. -/
theorem permProperties : Obligations.PermProperties := by
  refine ⟨by decide, perm_bijective, by decide, fun g hg => ?_, permInv_perm, perm_xor, perm_sboxBlock⟩
  interval_cases g <;> exact ⟨rfl, rfl, rfl⟩

end Sys2Proof
end

section
/-! The obligations on the round constants, the round keys and the cipher as a bijection. -/

namespace Sys2Proof

/-! ### The round constants (R145) -/

theorem rc_period_start : rc 51 = 1 := by decide +kernel

/-- Doubling repeats from `rc(51) = rc(0)` on. -/
theorem rc_add_period (t : Nat) : rc (t + 51) = rc t := by
  induction t with
  | zero => exact rc_period_start
  | succ t ih => exact congrArg (gfMul · 2) ih

/-- Settles O24: the recursion by definition, the values by computation, the period by induction. -/
theorem roundConstants : Obligations.RoundConstants :=
  ⟨rfl, fun _ => rfl, by decide +kernel, rc_period_start, rc_add_period, fun s => ⟨_, Machine.exec_ksnext s, rfl⟩⟩

/-! ### The round keys (R151) -/

/-- A byte that takes the round constant shows it. -/
theorem rc_eq_of_ksNext_eq {c : Config} {prev : Block} {t t' : Nat} {j : Fin 3} (hj : c.ksRcl[j] = true)
    (h : ksNext c prev t = ksNext c prev t') : rc t = rc t' := by
  have hbyte : ksFirst c prev t j = ksFirst c prev t' j := by
    rw [← ksNext_first_group c prev t j.isLt, ← ksNext_first_group c prev t' j.isLt, h]
  simpa [ksFirst, hj] using hbyte

theorem rc_first_ten_injective : ∀ t t' : Fin 11, 1 ≤ t → 1 ≤ t' → rc t = rc t' → t = t' := by decide +kernel

/-- Settles O27: the byte that takes the constant, and the ten constants computed. -/
theorem roundKeysDifferByRound : Obligations.RoundKeysDifferByRound := by
  constructor
  · rintro c prev t t' hne ⟨j, hj⟩ h
    exact hne (rc_eq_of_ksNext_eq hj h)
  · intro t t' h1 h10 h1' h10' hne h
    have heq := rc_first_ten_injective ⟨t, by omega⟩ ⟨t', by omega⟩ h1 h1' h
    exact hne (congrArg Fin.val heq)

/-! ### The cipher as a bijection (R159) -/

theorem Block.xor_bijective (b : Block) : Function.Bijective fun a : Block => a.xor b :=
  Function.Involutive.bijective fun a => Block.xor_cancel a b

theorem sboxBlock_bijective {c : Config} (h : Function.Bijective (sbox c)) : Function.Bijective (sboxBlock c) := by
  constructor
  · intro x z hxz
    refine Vector.ext fun i hi => h.injective ?_
    rw [← sboxBlock_getElem c x i hi, hxz, sboxBlock_getElem]
  · intro y
    obtain ⟨preimage, hpreimage⟩ := h.surjective.hasRightInverse
    exact ⟨Block.ofFn fun i => preimage y[i], Vector.ext fun i hi => by simp [hpreimage _]⟩

/-- Each layer of a round is a bijection. -/
theorem cipherRound_bijective {c : Config} (h : c.MatrixInvertible) (rk : Block) :
    Function.Bijective fun s => cipherRound c s rk :=
  (Block.xor_bijective rk).comp <| perm_bijective.comp <|
    (sboxBlock_bijective ((sbox_bijective_iff c).2 h)).comp ⟨thetaInv_theta.injective, theta_thetaInv.surjective⟩

theorem cipherRounds_bijective {c : Config} (h : c.MatrixInvertible) (rk : Block) (ts : List Nat) :
    Function.Bijective fun s => cipherRounds c s rk ts := by
  induction ts generalizing rk with
  | nil => exact Function.bijective_id
  | cons t ts ih => exact (ih (ksNext c rk t)).comp (cipherRound_bijective h (ksNext c rk t))

/-- Settles O30: the inverse diffusion, the raw key and the rounds, each a bijection. -/
theorem encBlockBijective : Obligations.EncBlockBijective := fun _ k h =>
  (cipherRounds_bijective h k _).comp <|
    (Block.xor_bijective k).comp ⟨theta_thetaInv.injective, thetaInv_theta.surjective⟩

end Sys2Proof
end

section
/-! The obligation on the key stream of counter mode: the counter block of each data block. -/

namespace Sys2Proof

/-- Block `i` of counter mode meets the counter block after `i` increments (R168). -/
theorem ctrFrom_getElem? (c : Config) (k cb : Block) (data : List Block) (i : Nat) (hi : i < data.length) :
    (ctrFrom c k cb data)[i]? = some (data[i].xor (encBlock c (ctrInc^[i] cb) k)) := by
  induction data generalizing cb i with
  | nil => cases hi
  | cons d ds ih =>
    cases i with
    | zero => rfl
    | succ i => exact ih (ctrInc cb) i (Nat.lt_of_succ_lt_succ hi)

/-- From the start of a command the counter block of block `i` holds `i` (R165, R168). -/
theorem ctrInc_iterate_nonceBlock (n : Nonce) (i : Nat) : ctrInc^[i] (nonceBlock n) = withCounter (nonceBlock n) i := by
  rw [nonceBlock_eq_withCounter, ctrInc_iterate_withCounter, Nat.zero_add, withCounter_withCounter]

theorem Machine.State.dataBlocks_lt (s : Machine.State) : s.dataBlocks < 2 ^ 26 := by
  have := s.dataLen.isLt
  unfold Machine.State.dataBlocks
  omega

/-- Settles O33: the counter block of each data block, and a counter that `DATALEN` keeps below `2^26`. -/
theorem keystreamOfEachBlock : Obligations.KeystreamOfEachBlock := by
  refine ⟨fun c data k n => ⟨Machine.ctrApply_length c data k n, fun i hi => ?_⟩, fun n s i hi => ?_⟩
  · rw [ctrApply, ctrFrom_getElem? c k _ data i hi, ctrInc_iterate_nonceBlock]
    rfl
  · have hlt : i < 2 ^ 26 := hi.trans s.dataBlocks_lt
    rw [ctrInc_iterate_nonceBlock, counterValue_withCounter, Nat.mod_eq_of_lt (by omega)]
    exact ⟨rfl, hlt⟩

end Sys2Proof
end

section
/-! The obligations on authenticated encryption: the command AE in each case, and the tag and the data found again. -/

namespace Sys2Proof
open Machine

namespace Machine

/-- A command AE whose checks fail writes its status alone. -/
theorem exec_ae_of_failure {s : State} {code : Status} (h : firstFailure (ctrChecks s) = some code) :
    exec .ae s = .next (s.ended code) :=
  exec_failed (i := .ae) h

/-- A command AE that passes its checks and finds its data written: the ciphertext in place, and the tag
over it in `Y`. -/
theorem exec_ae_of_holds {s : State} {data : List Block} (hlen : s.CtrLengthOk) (hnonce : s.nonceLen = 48)
    (hdata : s.HoldsData data) :
    exec .ae s = .next (((s.setData (ctrApply s.config data s.key s.nonce)).setY
      (hmacTag s.config (ctrApply s.config data s.key s.nonce) s.key (some (nonceBlock s.nonce)))).finish .ok) := by
  have hexec := exec_completed (i := .ae) (ctrChecks_none.2 ⟨hlen, hnonce⟩) (State.written_of_holds hdata)
  rwa [State.result, State.data_of_holds hdata] at hexec

end Machine

/-- Settles O40: the two failures by the checks of CTR, the success by `exec_ae_of_holds`. -/
theorem aeCommand : Obligations.AeCommand := by
  refine fun s => ⟨fun hlen => exec_ae_of_failure (ctrChecks_badLength hlen),
    fun hlen hnonce => exec_ae_of_failure (ctrChecks_badNonce hlen hnonce), fun data hlen hnonce hdata => ?_⟩
  have himage : (ctrApply s.config data s.key s.nonce).length = s.dataBlocks := (ctrApply_length ..).trans hdata.1
  exact ⟨(s.setData (ctrApply s.config data s.key s.nonce)).dbuf, exec_ae_of_holds hlen hnonce hdata,
    s.setData_holds himage, fun a => s.setData_outside himage⟩

/-- Settles O41: HMAC reads the ciphertext that AE has left, and CTR turns it back under the same operands. -/
theorem aeTagIsRecomputedByHmac : Obligations.AeTagIsRecomputedByHmac := by
  intro s hlen hnonce hwritten
  have hdata : s.HoldsData s.data := State.holds_of_written (State.firstUnwritten_of_written hwritten)
  have himage : (ctrApply s.config s.data s.key s.nonce).length = s.dataBlocks :=
    (ctrApply_length ..).trans s.data_length
  have hholds := s.setData_holds himage
  have hae := exec_ae_of_holds hlen hnonce hdata
  refine ⟨_, hae, rfl, ⟨_, exec_hmac_of_holds rfl hlen.2 (.inr rfl) hholds, rfl, ?_⟩,
    ⟨_, exec_ctr_of_holds_ctrApply hlen hnonce hholds, rfl, State.setData_setData_read hdata himage⟩⟩
  rw [State.optionalBlock_present rfl]
  rfl

end Sys2Proof
end

section
/-! The obligation on the worked examples: the reference cipher is computed with the table of the S-box. -/

namespace Sys2Proof

theorem encBlock_reference_zero : encBlock .reference (Block.const 0) (Block.const 0) =
    #v[0x1D, 0x14, 0x51, 0x34, 0x85, 0x99, 0x99, 0xAA, 0x60, 0xAD, 0xDE, 0x6F] := by
  rw [encBlock_table]
  decide +kernel

theorem ctrApply_single (c : Config) (d k : Block) (n : Nonce) :
    ctrApply c [d] k n = [d.xor (encBlock c (nonceBlock n) k)] := rfl

theorem nonceBlock_zero : nonceBlock (Nonce.ofFn fun _ => 0) = Block.const 0 := rfl

theorem dmHash_single (c : Config) (m : Block) :
    dmHash c [m] = (encBlock c (Block.const 0) m).xor (Block.const 0) := rfl

theorem hmacTag_reference_zero : hmacTag .reference [Block.const 0] (Block.const 0) none =
    #v[0xB9, 0xC4, 0xE5, 0x6C, 0x06, 0xCD, 0x3F, 0x3C, 0x5B, 0x7E, 0x78, 0xAC] := by
  rw [hmacTag_none]
  simp only [dmHash, List.foldl, dmStep, encBlock_table]
  decide +kernel

theorem aeSeal_reference_zero :
    (aeSeal .reference [Block.const 0] (Block.const 0) (Nonce.ofFn fun _ => 0)).2 =
      #v[0xA6, 0xB7, 0x5D, 0x2E, 0x61, 0xBF, 0x9B, 0x9C, 0xED, 0xD1, 0x41, 0xC3] := by
  rw [aeSeal, hmacTag_some, ctrApply_single, nonceBlock_zero, encBlock_reference_zero]
  simp only [dmHash, List.foldl, dmStep, encBlock_table]
  decide +kernel

/-- Settles O59: each number by computation, the cipher with the table. -/
theorem workedExamples : Obligations.WorkedExamples := by
  refine ⟨by decide, by decide, by decide, by decide, by decide, by decide, by decide, ?_, sbox_reference_zero,
    by decide +kernel, by decide +kernel, by decide, ?_, encBlock_reference_zero, ?_, ?_, hmacTag_reference_zero,
    aeSeal_reference_zero⟩
  · rw [sbox_table]
    decide
  · rw [ksNext_table]
    decide +kernel
  · rw [ctrApply_single, nonceBlock_zero, encBlock_reference_zero]
    decide
  · rw [dmHash_single, encBlock_reference_zero]
    decide

end Sys2Proof
end
